-- ==== Sys2Proof/Word.lean ====
section
/-! DEFINITION. The word type of the Intcode core: a signed 64-bit integer (00_scope.md R6).
A word is a bit vector of 64 bits read as a two's-complement integer by `BitVec.toInt`. -/

namespace Sys2Proof

/-- One memory word, operand, immediate, relative base or input slot (00_scope.md R5 `WORD`, R6). -/
abbrev Word := BitVec 64

/-- The integer `x` lies in the range of an int64 (00_scope.md R6). -/
abbrev InInt64 (x : Int) : Prop := -(2 ^ 63) ≤ x ∧ x < 2 ^ 63

end Sys2Proof
end

