-- ==== Sys2Proof/Config.lean ====
section
/-! DEFINITION. The implementation parameters of 00_scope.md R5. The spec leaves their values open
(92_eei_decisions.md D5, D7, D8, D20), so they are plain data that a claim quantifies over. -/

namespace Sys2Proof

/-- `ARITH_OVERFLOW`: what a sum or product outside int64 does (00_scope.md R5, R7; D7). -/
inductive ArithOverflow where
  | fault
  | wrap
deriving DecidableEq, Repr

/-- `SURPLUS_DIGITS`: whether mode digits beyond the parameter count are checked
(00_scope.md R5, 30_encoding.md R58; D5). -/
inductive SurplusDigits where
  | ignore
  | validate
deriving DecidableEq, Repr

/-- The parameters of one core (00_scope.md R5). -/
structure Config where
  /-- `MEM_LIMIT`: addresses at or above it raise `MemoryExhausted` (20_memory.md R33; D8). -/
  memLimit : Nat
  arithOverflow : ArithOverflow
  surplusDigits : SurplusDigits
deriving DecidableEq, Repr

/-- The range R5 gives `MEM_LIMIT`. -/
abbrev Config.wf (c : Config) : Prop := 1 ≤ c.memLimit ∧ c.memLimit ≤ 2 ^ 63

/-- The setting 95_test_vectors.md uses "unless a vector says otherwise".
DESIGN CHOICE (log entry 2): only `State.reset` and `decodeTableWord` name it. -/
def Config.standard : Config :=
  { memLimit := 2 ^ 63, arithOverflow := .fault, surplusDigits := .ignore }

/-- The parameters of the amplifier-network host (00_scope.md R5, 60_exceptions.md R130; D20). -/
structure NetConfig where
  /-- `PHASE_BIAS`. -/
  phaseBias : Int
  /-- `AMP_COUNT`. -/
  ampCount : Nat
deriving DecidableEq, Repr

/-- The range R5 gives `AMP_COUNT`. -/
abbrev NetConfig.wf (c : NetConfig) : Prop := 1 ≤ c.ampCount

end Sys2Proof
end

