-- ==== Sys2Proof/Syntax.lean ====
section
/-! DEFINITION. The instructions of the Intcode core: one constructor per row of
spec/opcode_table.json (30_encoding.md R59), each parameter slot with its addressing mode and its
operand word (R53, R57). -/

namespace Sys2Proof

/-- The three addressing modes (20_memory.md R34). -/
inductive Mode where
  | position
  | immediate
  | relative
deriving DecidableEq, Repr

/-- A parameter slot: its mode and the operand word `o[k]` (30_encoding.md R53, R57). -/
structure Param where
  mode : Mode
  word : Word
deriving DecidableEq, Repr

/-- The ten opcodes (30_encoding.md R59), the `op` port of the decoder (R55). -/
inductive Op where
  | add
  | mul
  | inp
  | out
  | jt
  | jf
  | lt
  | eq
  | arb
  | hlt
deriving DecidableEq, Repr

/-- What the decoder answers for one instruction word (30_encoding.md R55): the opcode and the modes
of slots 0, 1 and 2. A mode of a slot the opcode does not have is `position`. -/
structure Decoded where
  op : Op
  mode0 : Mode
  mode1 : Mode
  mode2 : Mode
deriving DecidableEq, Repr

/-- The two faults of the decoder (30_encoding.md R55, 60_exceptions.md R110). -/
inductive DecodeFault where
  /-- A negative word, or `w mod 100` outside the ten opcodes. -/
  | invalidOpcode (w : Word)
  /-- Digit `d` outside 0, 1, 2 at mode-digit position `k` (0 is the hundreds digit). -/
  | invalidAddressingMode (w : Word) (k d : Nat)
deriving DecidableEq, Repr

/-- The instructions (30_encoding.md R59). -/
inductive Instr where
  /-- ADD: slots 0, 1 sources, slot 2 destination (R70). -/
  | add (a b d : Param)
  /-- MUL: slots 0, 1 sources, slot 2 destination (R71). -/
  | mul (a b d : Param)
  /-- IN: slot 0 destination (R80). -/
  | inp (d : Param)
  /-- OUT: slot 0 source (R81). -/
  | out (a : Param)
  /-- JT: slot 0 condition, slot 1 target value (R90). -/
  | jt (c t : Param)
  /-- JF: slot 0 condition, slot 1 target value (R91). -/
  | jf (c t : Param)
  /-- LT: slots 0, 1 sources, slot 2 destination (R72). -/
  | lt (a b d : Param)
  /-- EQ: slots 0, 1 sources, slot 2 destination (R73). -/
  | eq (a b d : Param)
  /-- ARB: slot 0 source (R100). -/
  | arb (v : Param)
  /-- HLT: no slot (R92). -/
  | hlt
deriving DecidableEq, Repr

end Sys2Proof
end

