-- ==== Sys2Proof/WellFormed.lean ====
section
/-! DEFINITION. Which instructions are legal as the opcode table lists them: a destination slot is in
Position or Relative mode (20_memory.md R34; spec/opcode_table.json, "legal" of the dst slots).
An instruction that fails this still decodes and still has a meaning: it raises
`ImmediateDestination` when it executes (20_memory.md R36, 30_encoding.md R60; log entry 14). -/

namespace Sys2Proof

/-- The destination slot of an instruction, if it has one (00_scope.md R9). -/
def Instr.dest : Instr → Option Param
  | .add _ _ d => some d
  | .mul _ _ d => some d
  | .inp d => some d
  | .out _ => none
  | .jt _ _ => none
  | .jf _ _ => none
  | .lt _ _ d => some d
  | .eq _ _ d => some d
  | .arb _ => none
  | .hlt => none

/-- The mode may stand in a destination slot (20_memory.md R34). -/
def Mode.isDest : Mode → Bool
  | .position => true
  | .immediate => false
  | .relative => true

/-- Every slot carries a mode the opcode table lists as legal for its role. -/
def Instr.wellFormed (i : Instr) : Bool :=
  match i.dest with
  | some d => d.mode.isDest
  | none => true

end Sys2Proof
end

