-- ==== Sys2Proof/Decode.lean ====
section
/-! DEFINITION. The decoder, total on every word (30_encoding.md R51 to R62), and after it the
encoder (R63). Fields are decimal digits of the instruction word, not bit fields (R50). -/

namespace Sys2Proof

/-- `digit_j(w)`: decimal digit `j` of a non-negative number, digit 0 the units (00_scope.md R8). -/
def digit (j n : Nat) : Nat := n / 10 ^ j % 10

/-- The number of an opcode (30_encoding.md R59). -/
def Op.code : Op → Nat
  | .add => 1
  | .mul => 2
  | .inp => 3
  | .out => 4
  | .jt => 5
  | .jf => 6
  | .lt => 7
  | .eq => 8
  | .arb => 9
  | .hlt => 99

/-- `n(op)`: the parameter count, a function of the opcode alone (30_encoding.md R54). -/
def Op.paramCount : Op → Nat
  | .add => 3
  | .mul => 3
  | .inp => 1
  | .out => 1
  | .jt => 2
  | .jf => 2
  | .lt => 3
  | .eq => 3
  | .arb => 1
  | .hlt => 0

/-- The opcode that `w mod 100` selects, if it is one of the ten (30_encoding.md R59, R60). -/
def opOfCode : Nat → Option Op
  | 1 => some .add
  | 2 => some .mul
  | 3 => some .inp
  | 4 => some .out
  | 5 => some .jt
  | 6 => some .jf
  | 7 => some .lt
  | 8 => some .eq
  | 9 => some .arb
  | 99 => some .hlt
  | _ => none

/-- A mode digit's mode (30_encoding.md R53). -/
def modeOfDigit : Nat → Option Mode
  | 0 => some .position
  | 1 => some .immediate
  | 2 => some .relative
  | _ => none

/-- The digit a mode is written as (30_encoding.md R53). -/
def Mode.digit : Mode → Nat
  | .position => 0
  | .immediate => 1
  | .relative => 2

/-- The opcode of `w`: a negative word and an opcode outside the ten are refused by name
(30_encoding.md R55, R56). -/
def decodeOp (w : Word) : Except DecodeFault Op :=
  if w.toInt < 0 then .error (.invalidOpcode w)
  else
    match opOfCode (w.toNat % 100) with
    | some op => .ok op
    | none => .error (.invalidOpcode w)

/-- The mode at mode-digit position `k` of `w`, checked (30_encoding.md R53, R55). -/
def decodeMode (w : Word) (k : Nat) : Except DecodeFault Mode :=
  match modeOfDigit (digit (k + 2) w.toNat) with
  | some m => .ok m
  | none => .error (.invalidAddressingMode w k (digit (k + 2) w.toNat))

/-- The mode of slot `k`, `position` where the opcode has no such slot (30_encoding.md R55). -/
def slotMode (w : Word) (op : Op) (k : Nat) : Except DecodeFault Mode :=
  if k < op.paramCount then decodeMode w k else .ok .position

/-- The surplus-digit loop of `Decode` under `Validate` (30_encoding.md R55, R58), from mode-digit
position `k` on, while digits remain. The first argument bounds the number of digits looked at. -/
def checkSurplus : Nat → Word → Nat → Except DecodeFault Unit
  | 0, _, _ => .ok ()
  | fuel + 1, w, k =>
    if w.toNat / 10 ^ (k + 2) = 0 then .ok ()
    else
      match decodeMode w k with
      | .ok _ => checkSurplus fuel w (k + 1)
      | .error f => .error f

/-- The decimal digits an int64 can have: 2^63 < 10^19 (DEDUCED, log entry 10). -/
def maxDigits : Nat := 19

/-- Whether surplus digits are checked is the parameter `SURPLUS_DIGITS` (30_encoding.md R58). -/
def surplusCheck (sd : SurplusDigits) (w : Word) (op : Op) : Except DecodeFault Unit :=
  match sd with
  | .ignore => .ok ()
  | .validate => checkSurplus maxDigits w op.paramCount

/-- `Decode(w)` (30_encoding.md R55): opcode first, then slot digits in slot order, then, under
`Validate`, the surplus digits. -/
def decodeWord (sd : SurplusDigits) (w : Word) : Except DecodeFault Decoded := do
  let op ← decodeOp w
  let m0 ← slotMode w op 0
  let m1 ← slotMode w op 1
  let m2 ← slotMode w op 2
  surplusCheck sd w op
  pure { op := op, mode0 := m0, mode1 := m1, mode2 := m2 }

/-- The instruction of a decoded word and its operand words `o[k]` (30_encoding.md R52, R57). -/
def Decoded.build (d : Decoded) (o : Nat → Word) : Instr :=
  match d.op with
  | .add => .add ⟨d.mode0, o 0⟩ ⟨d.mode1, o 1⟩ ⟨d.mode2, o 2⟩
  | .mul => .mul ⟨d.mode0, o 0⟩ ⟨d.mode1, o 1⟩ ⟨d.mode2, o 2⟩
  | .inp => .inp ⟨d.mode0, o 0⟩
  | .out => .out ⟨d.mode0, o 0⟩
  | .jt => .jt ⟨d.mode0, o 0⟩ ⟨d.mode1, o 1⟩
  | .jf => .jf ⟨d.mode0, o 0⟩ ⟨d.mode1, o 1⟩
  | .lt => .lt ⟨d.mode0, o 0⟩ ⟨d.mode1, o 1⟩ ⟨d.mode2, o 2⟩
  | .eq => .eq ⟨d.mode0, o 0⟩ ⟨d.mode1, o 1⟩ ⟨d.mode2, o 2⟩
  | .arb => .arb ⟨d.mode0, o 0⟩
  | .hlt => .hlt

/-- Decode the instruction at the head of a list of words and give the rest of the list. A word past
the list's end is 0, as a word past the memory's length is (20_memory.md R31; log entry 11). -/
def decode (sd : SurplusDigits) (ws : List Word) : Except DecodeFault (Instr × List Word) :=
  match decodeWord sd (ws.getD 0 0#64) with
  | .ok d => .ok (d.build (fun k => ws.getD (k + 1) 0#64), ws.drop (1 + d.op.paramCount))
  | .error f => .error f

/-! The encoder (30_encoding.md R52, R63). -/

/-- The opcode of an instruction. -/
def Instr.op : Instr → Op
  | .add _ _ _ => .add
  | .mul _ _ _ => .mul
  | .inp _ => .inp
  | .out _ => .out
  | .jt _ _ => .jt
  | .jf _ _ => .jf
  | .lt _ _ _ => .lt
  | .eq _ _ _ => .eq
  | .arb _ => .arb
  | .hlt => .hlt

/-- The slots of an instruction, in slot order (30_encoding.md R52). -/
def Instr.params : Instr → List Param
  | .add a b d => [a, b, d]
  | .mul a b d => [a, b, d]
  | .inp d => [d]
  | .out a => [a]
  | .jt c t => [c, t]
  | .jf c t => [c, t]
  | .lt a b d => [a, b, d]
  | .eq a b d => [a, b, d]
  | .arb v => [v]
  | .hlt => []

/-- The length of an instruction in words, `1 + n(op)` (30_encoding.md R62). -/
def Instr.length (i : Instr) : Nat := 1 + i.op.paramCount

/-- The canonical instruction word `op + 100*m0 + 1000*m1 + 10000*m2` (30_encoding.md R63). -/
def canonicalWord (op : Op) (m0 m1 m2 : Mode) : Word :=
  BitVec.ofNat 64 (op.code + 100 * m0.digit + 1000 * m1.digit + 10000 * m2.digit)

/-- The mode of slot `k` of a list of slots, `position` beyond its end (30_encoding.md R63). -/
def modeAt (ps : List Param) (k : Nat) : Mode :=
  match ps[k]? with
  | some p => p.mode
  | none => .position

/-- The words of an instruction: its canonical instruction word, then its operand words. -/
def encode (i : Instr) : List Word :=
  canonicalWord i.op (modeAt i.params 0) (modeAt i.params 1) (modeAt i.params 2)
    :: i.params.map Param.word

/-! The layout of an instruction given as one number, for the host's opcode-table questions. -/

/-- The four words (the longest instruction) of the number `w` of `nbits` bits: bit 0 is bit 0 of the
first word, each word is 64 bits, bits at and above `nbits` are 0 (log entry 12). -/
def tableWords (nbits w : Nat) : List Word :=
  let v := w % 2 ^ nbits
  [BitVec.ofNat 64 v, BitVec.ofNat 64 (v / 2 ^ 64), BitVec.ofNat 64 (v / 2 ^ 128),
    BitVec.ofNat 64 (v / 2 ^ 192)]

/-- The instruction the decoder reads from the number `w` of `nbits` bits, with the surplus-digit
setting of `State.reset` (log entry 12). -/
def decodeTableWord (nbits w : Nat) : Option Instr :=
  match decode Config.standard.surplusDigits (tableWords nbits w) with
  | .ok r => some r.1
  | .error _ => none

end Sys2Proof
end

