-- ==== Sys2Proof/Machine/State.lean ====
section
/-! DEFINITION. The state of one Program (10_state.md R10 to R22), as plain data, with the model's
own two fields `cfg` (log entry 1) and `event` (log entry 3). -/

namespace Sys2Proof.Machine

/-- The fault kinds of 60_exceptions.md R110. A fault is raised inside a Step and TAKEN by it (R111):
the Step answers a next state whose status is `Faulted`; no step ends in `Host.Outcome.fault`
(log entry 4). Taking the fault is what the spec describes, so recording it is safe. -/
inductive Fault where
  /-- Code 1. Raised by the decoder on the instruction word `w`, at every fetch; safe. -/
  | invalidOpcode (w : Word)
  /-- Code 2. Raised by the decoder: digit `d` at mode-digit position `k`; safe. -/
  | invalidAddressingMode (w : Word) (k d : Nat)
  /-- Code 3. Raised by nothing: the cursor has two values (10_state.md R16); safe. -/
  | unknownInputSlot
  /-- Code 4. Raised by a Position operand, a Relative sum or a taken jump target below 0, with
  that value; safe. -/
  | negativeAddress (a : Word)
  /-- Code 5. Raised by ADD, MUL, IN, LT, EQ on an Immediate destination, with the slot; safe. -/
  | immediateDestination (slot : Nat)
  /-- Code 6. Raised under `ARITH_OVERFLOW = Fault` by ADD, MUL, ARB and Relative sums; safe. -/
  | arithmeticOverflow
  /-- Code 7. Raised by every fetch, read or write at an address at or above `MEM_LIMIT`; safe. -/
  | memoryExhausted (a : Nat)
deriving DecidableEq, Repr

/-- What the core refuses, by name. No step ends in `Host.Outcome.refused` (log entry 4). -/
inductive Refusal where
  /-- Raised by nothing: every instruction has its meaning; it would be safe (the step stops). -/
  | notModelled (mnemonic : String)
  /-- Answered to `Step` or `Run` on a `Halted` Program (60_exceptions.md R122), recorded in
  `State.event` with the refused mark; safe: nothing else changes. -/
  | runAfterHalt
  /-- Answered to `Step` or `Run` on a `Faulted` Program (60_exceptions.md R122), recorded in
  `State.event` with the refused mark; safe: nothing else changes. -/
  | runAfterFault
deriving DecidableEq, Repr

/-- A fault record `(kind, info, ip_f)` (60_exceptions.md R110). -/
structure FaultRecord where
  fault : Fault
  ip : Nat
deriving DecidableEq, Repr

/-- The run status `st` (10_state.md R17). -/
inductive Status where
  | ready
  | halted
  | faulted (f : FaultRecord)
deriving DecidableEq, Repr

/-- The input cursor `cur` (10_state.md R16). -/
inductive Cursor where
  | first
  | second
deriving DecidableEq, Repr

/-- What the last Step handed to the host (60_exceptions.md R120 to R122). The model's own: a step
answers only with a state, so its outcome stands here (log entry 3). -/
inductive Event where
  /-- No Step since `New`. -/
  | none
  /-- `Continue`. -/
  | continued
  /-- `Output(v)`: the current `Run` returns `Ok(Some(v))`. -/
  | output (v : Word)
  /-- `Halt`: the current `Run` returns `Ok(None)`. -/
  | halted
  /-- `Fault(f)`: the current `Run` returns `Err(f)`. -/
  | faulted (f : FaultRecord)
  /-- The command was refused (60_exceptions.md R122). -/
  | refused (r : Refusal)
deriving DecidableEq, Repr

/-- The memory `M[0..len-1]` (10_state.md R10, R11). `cells` lists the words that are not 0, by
strictly rising address below `len`; every other word below `len` is 0 (log entry 5). -/
structure Memory where
  len : Nat
  cells : List (Nat × Word)
deriving DecidableEq, Repr

/-- The state of one Program (10_state.md R21). -/
structure State where
  /-- The parameters of the core (00_scope.md R5, R20); the model's own field, never written. -/
  cfg : Config
  /-- `M` and `len` (10_state.md R10, R11). -/
  mem : Memory
  /-- Instruction pointer (10_state.md R12), a natural. -/
  ip : Nat
  /-- Relative base (10_state.md R13). -/
  rb : Word
  /-- First input (10_state.md R14). -/
  in1 : Word
  /-- Second input (10_state.md R15). -/
  in2 : Word
  /-- Input cursor (10_state.md R16). -/
  cur : Cursor
  /-- Run status (10_state.md R17). -/
  st : Status
  /-- Refused mark (10_state.md R18). -/
  refused : Bool
  /-- Outcome of the last Step; the model's own field. -/
  event : Event
deriving DecidableEq, Repr

/-- The machine right after reset: `New` (70_reset_and_hazards.md R140) of the empty image with both
inputs 0, under `Config.standard`. The image, the inputs and the parameters are the host's to give;
these are a DESIGN CHOICE (log entry 2). -/
def State.reset : State :=
  { cfg := Config.standard
    mem := { len := 0, cells := [] }
    ip := 0
    rb := 0
    in1 := 0
    in2 := 0
    cur := .first
    st := .ready
    refused := false
    event := .none }

end Sys2Proof.Machine
end

