-- ==== Sys2Proof/Machine/Ops.lean ====
section
/-! DEFINITION. The named operations over memory and registers: growing reads and writes
(20_memory.md R31 to R33), `fit64` (00_scope.md R7), taking a fault (60_exceptions.md R111), the
refused mark (R122), `New` (70_reset_and_hazards.md R140), `SetInput` (R123) and `Snapshot` (R124). -/

namespace Sys2Proof.Machine

/-! Memory as a list of non-zero words. -/

/-- The word a list of cells holds at `a`; an unlisted word is 0. -/
def cellsGet : List (Nat × Word) → Nat → Word
  | [], _ => 0#64
  | c :: cs, a => if c.1 = a then c.2 else cellsGet cs a

/-- The cells without those at `a`. -/
def cellsErase : List (Nat × Word) → Nat → List (Nat × Word)
  | [], _ => []
  | c :: cs, a => if c.1 = a then cellsErase cs a else c :: cellsErase cs a

/-- The cells with `(a, v)` put before the first cell of a higher address. -/
def cellsPut : List (Nat × Word) → Nat → Word → List (Nat × Word)
  | [], a, v => [(a, v)]
  | c :: cs, a, v => if a < c.1 then (a, v) :: c :: cs else c :: cellsPut cs a v

/-- The canonical form of a memory: rising addresses, no listed 0, all below `len`
(10_state.md R10, R11; log entry 5). -/
abbrev Memory.wf (m : Memory) : Prop :=
  m.cells.Pairwise (fun x y => x.1 < y.1) ∧ ∀ c ∈ m.cells, c.2 ≠ 0#64 ∧ c.1 < m.len

/-- `M[a]` without growth; 0 at an address the memory does not hold (00_scope.md R8). -/
def Memory.get (m : Memory) (a : Nat) : Word := cellsGet m.cells a

/-- Growth up to and including `a` with zeros (20_memory.md R31). -/
def Memory.grow (m : Memory) (a : Nat) : Memory :=
  if m.len ≤ a then { m with len := a + 1 } else m

/-- `M[a] <- v` with growth (20_memory.md R32). Writing 0 removes the cell. -/
def Memory.set (m : Memory) (a : Nat) (v : Word) : Memory :=
  { len := (m.grow a).len
    cells := if v = 0#64 then cellsErase m.cells a else cellsPut (cellsErase m.cells a) a v }

/-- The cells of an image whose first word stands at `a`. -/
def imageCells : Nat → List Word → List (Nat × Word)
  | _, [] => []
  | a, w :: ws => if w = 0#64 then imageCells (a + 1) ws else (a, w) :: imageCells (a + 1) ws

/-- The memory that holds exactly an image (10_state.md R21). -/
def Memory.ofImage (image : List Word) : Memory :=
  { len := image.length, cells := imageCells 0 image }

/-- The words `M[0], ..., M[len-1]` as a list (10_state.md R10). -/
def Memory.words (m : Memory) : List Word := (List.range m.len).map m.get

/-- `ws` written at `a`, `a+1`, ... -/
def Memory.place : Memory → Nat → List Word → Memory
  | m, _, [] => m
  | m, a, w :: ws => (m.set a w).place (a + 1) ws

/-! Named updates of the state. -/

def State.withMem (m : Memory) (s : State) : State := { s with mem := m }

/-- Fall through to the instruction `n` words on (10_state.md R12): the Step's outcome is
`Continue`. -/
def State.advance (n : Nat) (s : State) : State :=
  { s with ip := s.ip + n, event := .continued }

/-- A taken jump to `t` (42_control.md R90): the Step's outcome is `Continue`. -/
def State.jumpTo (t : Nat) (s : State) : State := { s with ip := t, event := .continued }

/-- Taking a fault (60_exceptions.md R111): nothing changes but `st <- Faulted((F, info, ip))`, and
the record is handed to the host. `s` is the state before the instruction's fetch. -/
def State.takeFault (f : Fault) (s : State) : State :=
  { s with st := .faulted ⟨f, s.ip⟩, event := .faulted ⟨f, s.ip⟩ }

/-- A refused command (60_exceptions.md R122): nothing changes but `refused <- true`. -/
def State.markRefused (r : Refusal) (s : State) : State :=
  { s with refused := true, event := .refused r }

/-- `SetInput(v)` (60_exceptions.md R123). -/
def State.setInput (v : Word) (s : State) : State := { s with in2 := v }

/-! Access primitives. An access that may fault answers `Except Fault`. -/

/-- `MemRead(a)` (20_memory.md R31). -/
def memRead (a : Nat) (s : State) : Except Fault (Word × State) :=
  if s.cfg.memLimit ≤ a then .error (.memoryExhausted a)
  else .ok (s.mem.get a, s.withMem (s.mem.grow a))

/-- `MemWrite(a, v)` (20_memory.md R32). -/
def memWrite (a : Nat) (v : Word) (s : State) : Except Fault State :=
  if s.cfg.memLimit ≤ a then .error (.memoryExhausted a)
  else .ok (s.withMem (s.mem.set a v))

/-- `fit64(x)` (00_scope.md R7): `x` if it is an int64, else the `ARITH_OVERFLOW` outcome. -/
def fit64 (ov : ArithOverflow) (x : Int) : Except Fault Word :=
  if InInt64 x then .ok (BitVec.ofInt 64 x)
  else
    match ov with
    | .fault => .error .arithmeticOverflow
    | .wrap => .ok (BitVec.ofInt 64 x)

/-- The `n` fetches of an instruction's words from `a` on, in order (20_memory.md R44 steps 1 and 3,
30_encoding.md R57): they grow memory and may raise `MemoryExhausted`. -/
def fetchWords : Nat → Nat → State → Except Fault State
  | _, 0, s => .ok s
  | a, n + 1, s =>
    match memRead a s with
    | .ok r => fetchWords (a + 1) n r.2
    | .error f => .error f

/-- One instruction of `n` words as one transaction (60_exceptions.md R111, R120; 20_memory.md R42):
its word fetches, then the lines `body` of its rule on a working copy, which is committed only if no
line faults; a fault is taken from the state before the fetch. -/
def transact (n : Nat) (body : State → Except Fault State) (s : State) :
    Host.Outcome State Fault Refusal :=
  match (fetchWords s.ip n s).bind body with
  | .ok t => .next t
  | .error f => .next (s.takeFault f)

/-! Fault codes. -/

/-- The numeric code of a fault kind (60_exceptions.md R110; D24). -/
def Fault.code : Fault → Nat
  | .invalidOpcode _ => 1
  | .invalidAddressingMode _ _ _ => 2
  | .unknownInputSlot => 3
  | .negativeAddress _ => 4
  | .immediateDestination _ => 5
  | .arithmeticOverflow => 6
  | .memoryExhausted _ => 7

/-- The decoder's fault as a fault of the core (60_exceptions.md R110). -/
def Fault.ofDecode : DecodeFault → Fault
  | .invalidOpcode w => .invalidOpcode w
  | .invalidAddressingMode w k d => .invalidAddressingMode w k d

/-! `New` and `Snapshot`. -/

/-- `New(image, first, second)` (70_reset_and_hazards.md R140) of a core with parameters `cfg`. An
image longer than `MEM_LIMIT` breaks the precondition (D21) and makes no Program (log entry 15). -/
def newProgram (cfg : Config) (image : List Word) (first second : Word) : Option State :=
  if image.length ≤ cfg.memLimit then
    some
      { cfg := cfg
        mem := Memory.ofImage image
        ip := 0
        rb := 0
        in1 := first
        in2 := second
        cur := .first
        st := .ready
        refused := false
        event := .none }
  else none

/-- What `Snapshot` returns (60_exceptions.md R124): every element of 10_state.md R21. `mem` holds
both `M[0..len-1]` and `len` (log entry 16). -/
structure Snapshot where
  mem : Memory
  ip : Nat
  rb : Word
  in1 : Word
  in2 : Word
  cur : Cursor
  st : Status
  refused : Bool
deriving DecidableEq, Repr

/-- `Snapshot` (60_exceptions.md R124); it changes nothing. -/
def State.snapshot (s : State) : Snapshot :=
  { mem := s.mem, ip := s.ip, rb := s.rb, in1 := s.in1, in2 := s.in2, cur := s.cur, st := s.st,
    refused := s.refused }

end Sys2Proof.Machine
end

