-- ==== Sys2Proof/Machine/Operands.lean ====
section
/-! DEFINITION. The operand forms: resolving a slot's address, `ReadParam` and `DestAddr`
(20_memory.md R34 to R39), and the target of a jump (42_control.md R90). -/

namespace Sys2Proof.Machine

/-- An int64 as an address: a negative one is never used and never wraps (20_memory.md R38). -/
def addrOf (a : Word) : Except Fault Nat :=
  if a.toInt < 0 then .error (.negativeAddress a) else .ok a.toNat

/-- The address a Relative operand names: `fit64(rb + o)`, checked (20_memory.md R35, R36). -/
def relativeAddr (o : Word) (s : State) : Except Fault Nat :=
  match fit64 s.cfg.arithOverflow (s.rb.toInt + o.toInt) with
  | .ok a => addrOf a
  | .error f => .error f

/-- A memory read at an address that resolving a slot gave. -/
def readAt (a : Except Fault Nat) (s : State) : Except Fault (Word × State) :=
  match a with
  | .ok n => memRead n s
  | .error f => .error f

/-- `ReadParam(k)` of the slot `p` (20_memory.md R35). -/
def readParam (p : Param) (s : State) : Except Fault (Word × State) :=
  match p.mode with
  | .position => readAt (addrOf p.word) s
  | .immediate => .ok (p.word, s)
  | .relative => readAt (relativeAddr p.word s) s

/-- `DestAddr(k)` of the slot `p`, slot number `k` (20_memory.md R36). -/
def destAddr (k : Nat) (p : Param) (s : State) : Except Fault Nat :=
  match p.mode with
  | .position => addrOf p.word
  | .immediate => .error (.immediateDestination k)
  | .relative => relativeAddr p.word s

/-- The last lines of an instruction that writes: `DestAddr`, then `MemWrite`, its one write
(20_memory.md R44). -/
def writeDest (k : Nat) (p : Param) (v : Word) (s : State) : Except Fault State := do
  let d ← destAddr k p s
  memWrite d v s

end Sys2Proof.Machine
end

