-- ==== Sys2Proof/Machine/Flags.lean ====
section
/-! DEFINITION. The core has no flags and no condition codes (10_state.md R19): a condition is a
memory word or an immediate. Here stand the words LT and EQ write and the test JT and JF make. -/

namespace Sys2Proof.Machine

/-- The word a comparison writes: 1 or 0 (10_state.md R19, 40_arith_compare.md R72, R73). -/
def condWord (c : Bool) : Word := if c then 1#64 else 0#64

/-- The signed comparison of LT (40_arith_compare.md R72, R74). -/
def isLess (a b : Word) : Bool := decide (a.toInt < b.toInt)

/-- The comparison of EQ, for identity of value (40_arith_compare.md R73, R74). -/
def isEqual (a b : Word) : Bool := decide (a = b)

/-- A condition is true when it is not zero (42_control.md R90). -/
def condHolds (c : Word) : Bool := decide (c ≠ 0#64)

end Sys2Proof.Machine
end

