-- ==== Sys2Proof/Machine/Arith.lean ====
section
/-! DEFINITION. ADD, MUL, LT and EQ (40_arith_compare.md R70 to R74). -/

namespace Sys2Proof.Machine

/-- The lines the four F3 instructions share (40_arith_compare.md R70 to R73): read slots 0 and 1,
compute, resolve slot 2, write, advance by 4. -/
def computeStore (alu : Config → Word → Word → Except Fault Word) (a b d : Param) (s : State) :
    Host.Outcome State Fault Refusal :=
  transact 4
    (fun t => do
      let x ← readParam a t
      let y ← readParam b x.2
      let r ← alu s.cfg x.1 y.1
      let u ← writeDest 2 d r y.2
      pure (u.advance 4))
    s

/-- ADD (40_arith_compare.md R70): `fit64(a + b)`. -/
def execAdd (a b d : Param) (s : State) : Host.Outcome State Fault Refusal :=
  computeStore (fun cfg x y => fit64 cfg.arithOverflow (x.toInt + y.toInt)) a b d s

/-- MUL (40_arith_compare.md R71): `fit64(a * b)`. -/
def execMul (a b d : Param) (s : State) : Host.Outcome State Fault Refusal :=
  computeStore (fun cfg x y => fit64 cfg.arithOverflow (x.toInt * y.toInt)) a b d s

/-- LT (40_arith_compare.md R72): 1 if `a < b` as signed integers, else 0. -/
def execLt (a b d : Param) (s : State) : Host.Outcome State Fault Refusal :=
  computeStore (fun _ x y => .ok (condWord (isLess x y))) a b d s

/-- EQ (40_arith_compare.md R73): 1 if `a = b`, else 0. -/
def execEq (a b d : Param) (s : State) : Host.Outcome State Fault Refusal :=
  computeStore (fun _ x y => .ok (condWord (isEqual x y))) a b d s

end Sys2Proof.Machine
end

