-- ==== Sys2Proof/Machine/Control.lean ====
section
/-! DEFINITION. JT, JF and HLT (42_control.md R90 to R93). -/

namespace Sys2Proof.Machine

/-- The lines JT and JF share (42_control.md R90, R91): read the condition; read slot 1 and check
the target only when `taken` holds of the condition, else advance by 3. -/
def jumpWhen (taken : Word → Bool) (c t : Param) (s : State) : Host.Outcome State Fault Refusal :=
  transact 3
    (fun u => do
      let x ← readParam c u
      if taken x.1 then
        let y ← readParam t x.2
        let n ← addrOf y.1
        pure (y.2.jumpTo n)
      else
        pure (x.2.advance 3))
    s

/-- JT (42_control.md R90): taken when the condition is not 0. -/
def execJt (c t : Param) (s : State) : Host.Outcome State Fault Refusal :=
  jumpWhen (fun x => condHolds x) c t s

/-- JF (42_control.md R91): taken when the condition is 0. -/
def execJf (c t : Param) (s : State) : Host.Outcome State Fault Refusal :=
  jumpWhen (fun x => !condHolds x) c t s

/-- `st <- Halted` (42_control.md R92): the Step's outcome is `Halt`. -/
def State.halt (s : State) : State := { s with st := .halted, event := .halted }

/-- HLT (42_control.md R92): `ip` stays at the halt instruction. -/
def execHlt (s : State) : Host.Outcome State Fault Refusal :=
  transact 1 (fun t => .ok t.halt) s

end Sys2Proof.Machine
end

