-- ==== Sys2Proof/Machine/Io.lean ====
section
/-! DEFINITION. IN and OUT (41_io.md R80 to R82). -/

namespace Sys2Proof.Machine

/-- The value the next IN takes: `in1` the first time, `in2` ever after (41_io.md R80, R82). -/
def nextInput (s : State) : Word :=
  match s.cur with
  | .first => s.in1
  | .second => s.in2

/-- `cur <- Second` (10_state.md R16). -/
def State.consumeInput (s : State) : State := { s with cur := .second }

/-- `emit Output(v)` (60_exceptions.md R121): the Step's outcome is `Output(v)`; `st` stays. -/
def State.emit (v : Word) (s : State) : State := { s with event := .output v }

/-- IN (41_io.md R80). -/
def execInp (d : Param) (s : State) : Host.Outcome State Fault Refusal :=
  transact 2
    (fun t => do
      let u ← writeDest 0 d (nextInput t) t
      pure (u.consumeInput.advance 2))
    s

/-- OUT (41_io.md R81): the slot is read through its own mode (90_conflicts.md C1). -/
def execOut (a : Param) (s : State) : Host.Outcome State Fault Refusal :=
  transact 2
    (fun t => do
      let x ← readParam a t
      pure ((x.2.advance 2).emit x.1))
    s

end Sys2Proof.Machine
end

