-- ==== Sys2Proof/Machine/RelBase.lean ====
section
/-! DEFINITION. ARB (43_relative_base.md R100), the only writer of `rb` (10_state.md R13). -/

namespace Sys2Proof.Machine

/-- `rb <- v` (10_state.md R13). -/
def State.setRb (v : Word) (s : State) : State := { s with rb := v }

/-- ARB (43_relative_base.md R100): a Relative slot 0 uses the old `rb`. -/
def execArb (v : Param) (s : State) : Host.Outcome State Fault Refusal :=
  transact 2
    (fun t => do
      let x ← readParam v t
      let r ← fit64 s.cfg.arithOverflow (s.rb.toInt + x.1.toInt)
      pure ((x.2.setRb r).advance 2))
    s

end Sys2Proof.Machine
end

