-- ==== Sys2Proof/Machine/Fetch.lean ====
section
/-! DEFINITION. What a Step does before an instruction executes: the status check
(60_exceptions.md R120, R122), the instruction-word fetch, `Decode`, and the operand words
(20_memory.md R44 steps 1 to 3). -/

namespace Sys2Proof.Machine

/-- The instruction at `ip`, or the fault of fetching its word or decoding it
(60_exceptions.md R112 points 1 to 3). The operand words are read here without growth; the growing
fetches, and their `MemoryExhausted`, are the first thing `exec` does (log entry 6). -/
def fetchInstr (s : State) : Except Fault Instr :=
  match memRead s.ip s with
  | .error f => .error f
  | .ok r =>
    match decodeWord s.cfg.surplusDigits r.1 with
    | .error e => .error (Fault.ofDecode e)
    | .ok d => .ok (d.build fun k => r.2.mem.get (s.ip + 1 + k))

/-- The start of a Step: the instruction to execute, or the state the Step ends in without
executing one (a refused command, or a fetch or decode fault taken). -/
def beginStep (s : State) : Except State Instr :=
  match s.st with
  | .ready =>
    match fetchInstr s with
    | .ok i => .ok i
    | .error f => .error (s.takeFault f)
  | .halted => .error (s.markRefused .runAfterHalt)
  | .faulted _ => .error (s.markRefused .runAfterFault)

/-- `s` with `ws` stored from `ip` on and the Program `Ready`, so that its next Step runs the
instruction they spell (log entry 7). -/
def State.withWordsAtIp (ws : List Word) (s : State) : State :=
  { s with mem := s.mem.place s.ip ws, st := .ready }

end Sys2Proof.Machine
end

