-- ==== Sys2Proof/Machine/Step.lean ====
section
/-! DEFINITION. `Step` (60_exceptions.md R120): one instruction as one atomic transaction. -/

namespace Sys2Proof.Machine

/-- `Step()` (60_exceptions.md R120, R122). -/
def step (s : State) : Host.Outcome State Fault Refusal :=
  match beginStep s with
  | .ok i => exec i s
  | .error t => .next t

/-- `s` with the instruction whose bits are `w` stored where `step` fetches next (log entry 7). -/
def State.withFetchWord (s : State) (nbits w : Nat) : State :=
  s.withWordsAtIp (tableWords nbits w)

end Sys2Proof.Machine
end

