-- ==== Sys2Proof/Machine/Assembly.lean ====
section
/-! DEFINITION. The assembly notation and the pseudo-instructions of 30_encoding.md R64 and R65, as
data: operand forms, labels, `.word` lines and their encoding. The notation carries no meaning of its
own (92_eei_decisions.md D15). -/

namespace Sys2Proof.Machine

/-- A literal or a label, which stands for an address (30_encoding.md R64). -/
inductive AsmValue where
  | lit (w : Word)
  | label (name : String)
  /-- The operand of `[rb-name]`. -/
  | negLabel (name : String)
deriving DecidableEq, Repr

/-- The operand forms `[a]`, `#v` and `[rb+d]` (30_encoding.md R64). -/
inductive AsmOperand where
  | pos (a : AsmValue)
  | imm (v : AsmValue)
  | rel (d : AsmValue)
deriving DecidableEq, Repr

/-- A line of assembly (30_encoding.md R64, R65). -/
inductive AsmLine where
  | label (name : String)
  | word (vs : List AsmValue)
  | instr (op : Op) (operands : List AsmOperand)
  | jmp (t : AsmOperand)
  | mov (s d : AsmOperand)
  | nop
deriving DecidableEq, Repr

/-- A pseudo-instruction's expansion to exactly one instruction (30_encoding.md R65). -/
def AsmLine.expand : AsmLine → AsmLine
  | .label name => .label name
  | .word vs => .word vs
  | .instr op operands => .instr op operands
  | .jmp t => .instr .jt [.imm (.lit 1), t]
  | .mov s d => .instr .add [s, .imm (.lit 0), d]
  | .nop => .instr .jt [.imm (.lit 0), .imm (.lit 0)]

/-- How many words a line places. -/
def AsmLine.size (l : AsmLine) : Nat :=
  match l.expand with
  | .word vs => vs.length
  | .instr op _ => 1 + op.paramCount
  | .label _ => 0
  | .jmp _ => 0
  | .mov _ _ => 0
  | .nop => 0

/-- The address each label stands for: that of the next word (30_encoding.md R64). -/
def labelTable : Nat → List AsmLine → List (String × Nat)
  | _, [] => []
  | a, .label name :: ls => (name, a) :: labelTable a ls
  | a, l :: ls => labelTable (a + l.size) ls

/-- The word a value stands for; an undefined label has none (log entry 13). -/
def AsmValue.resolve (labels : List (String × Nat)) : AsmValue → Option Word
  | .lit w => some w
  | .label name => (labels.lookup name).map (BitVec.ofNat 64)
  | .negLabel name => (labels.lookup name).map (fun a => -BitVec.ofNat 64 a)

/-- The slot an operand form stands for (30_encoding.md R64). -/
def AsmOperand.resolve (labels : List (String × Nat)) : AsmOperand → Option Param
  | .pos a => (a.resolve labels).map (Param.mk .position)
  | .imm v => (v.resolve labels).map (Param.mk .immediate)
  | .rel d => (d.resolve labels).map (Param.mk .relative)

/-- The instruction of an opcode with these slots, if there are as many as the opcode has
(30_encoding.md R54, R64). -/
def instrOf : Op → List Param → Option Instr
  | .add, [a, b, d] => some (.add a b d)
  | .mul, [a, b, d] => some (.mul a b d)
  | .inp, [d] => some (.inp d)
  | .out, [a] => some (.out a)
  | .jt, [c, t] => some (.jt c t)
  | .jf, [c, t] => some (.jf c t)
  | .lt, [a, b, d] => some (.lt a b d)
  | .eq, [a, b, d] => some (.eq a b d)
  | .arb, [v] => some (.arb v)
  | .hlt, [] => some .hlt
  | _, _ => none

/-- The words of one line: its canonical instruction word and operand words (30_encoding.md R64). -/
def AsmLine.words (labels : List (String × Nat)) (l : AsmLine) : Option (List Word) :=
  match l.expand with
  | .word vs => vs.mapM (AsmValue.resolve labels)
  | .instr op operands =>
    match operands.mapM (AsmOperand.resolve labels) with
    | some ps => (instrOf op ps).map encode
    | none => none
  | .label _ => some []
  | .jmp _ => none
  | .mov _ _ => none
  | .nop => none

/-- The image a list of lines places at address 0 (30_encoding.md R64). -/
def assemble (ls : List AsmLine) : Option (List Word) :=
  (ls.mapM (AsmLine.words (labelTable 0 ls))).map List.flatten

/-- `JMP t` expands to `JT #1, t` (30_encoding.md R65). -/
def pseudoJmp (t : Param) : Instr := .jt ⟨.immediate, 1⟩ t

/-- `MOV s, d` expands to `ADD s, #0, d` (30_encoding.md R65). -/
def pseudoMov (s d : Param) : Instr := .add s ⟨.immediate, 0⟩ d

/-- `NOP` expands to `JT #0, #0` (30_encoding.md R65). -/
def pseudoNop : Instr := .jt ⟨.immediate, 0⟩ ⟨.immediate, 0⟩

end Sys2Proof.Machine
end

