-- ==== Sys2Proof/Machine/AsmText.lean ====
section
/-! DEFINITION. Reading the assembly text of 30_encoding.md R64 and R65 as lists of characters. What
the notation does not settle (blanks, where a label may stand, names) is log entry 13. -/

namespace Sys2Proof.Machine

/-- The pieces of a text between the separators `c`. -/
def splitChars (c : Char) : List Char → List (List Char)
  | [] => [[]]
  | x :: xs =>
    if x = c then [] :: splitChars c xs
    else
      match splitChars c xs with
      | [] => [[x]]
      | p :: ps => (x :: p) :: ps

/-- A blank inside a line. -/
def isBlank (c : Char) : Bool := c = ' ' || c = '\t' || c = '\r'

/-- A text without the blanks at its two ends. -/
def trimChars (l : List Char) : List Char :=
  ((l.dropWhile isBlank).reverse.dropWhile isBlank).reverse

/-- The number a list of decimal digits writes, continuing from `acc`. -/
def digitsValue : Nat → List Char → Option Nat
  | acc, [] => some acc
  | acc, c :: cs =>
    if c.isDigit then digitsValue (10 * acc + (c.toNat - '0'.toNat)) cs else none

/-- A decimal number without a sign. -/
def readNat (l : List Char) : Option Nat := if l = [] then none else digitsValue 0 l

/-- A decimal literal with an optional minus sign. -/
def readInt : List Char → Option Int
  | [] => none
  | c :: cs =>
    if c = '-' then (readNat cs).map (fun n => -(n : Int)) else (readNat (c :: cs)).map Int.ofNat

/-- An integer as a literal, if it is an int64 (30_encoding.md R64). -/
def literal (x : Int) : Option AsmValue :=
  if InInt64 x then some (.lit (BitVec.ofInt 64 x)) else none

/-- A name begins with a letter or an underscore and goes on with letters, digits, underscores. -/
def isName : List Char → Bool
  | [] => false
  | c :: cs => (c.isAlpha || c = '_') && cs.all (fun x => x.isAlphanum || x = '_')

/-- A literal, or a label, which may be used wherever a literal may (30_encoding.md R64). -/
def readValue (l : List Char) : Option AsmValue :=
  match readInt l with
  | some x => literal x
  | none => if isName l then some (.label (String.ofList l)) else none

/-- The operand `-d` of `[rb-d]` (30_encoding.md R64). -/
def readNegated (l : List Char) : Option AsmValue :=
  match readInt l with
  | some x => literal (-x)
  | none => if isName l then some (.negLabel (String.ofList l)) else none

/-- What stands between the brackets: `rb+d` or `rb-d`, else an address (30_encoding.md R64). -/
def readBracket : List Char → Option AsmOperand
  | 'r' :: 'b' :: '+' :: cs => (readValue cs).map AsmOperand.rel
  | 'r' :: 'b' :: '-' :: cs => (readNegated cs).map AsmOperand.rel
  | cs => (readValue cs).map AsmOperand.pos

/-- An operand form (30_encoding.md R64). -/
def readOperand : List Char → Option AsmOperand
  | '#' :: cs => (readValue cs).map AsmOperand.imm
  | '[' :: cs => if cs.getLast? = some ']' then readBracket cs.dropLast else none
  | _ => none

/-- The mnemonics (30_encoding.md R59). -/
def mnemonicTable : List (List Char × Op) :=
  [(['A', 'D', 'D'], .add), (['M', 'U', 'L'], .mul), (['I', 'N'], .inp), (['O', 'U', 'T'], .out),
    (['J', 'T'], .jt), (['J', 'F'], .jf), (['L', 'T'], .lt), (['E', 'Q'], .eq),
    (['A', 'R', 'B'], .arb), (['H', 'L', 'T'], .hlt)]

/-- The line of a pseudo-instruction (30_encoding.md R65). -/
def pseudoLine (m : List Char) (operands : List AsmOperand) : Option AsmLine :=
  match operands with
  | [] => if m = ['N', 'O', 'P'] then some .nop else none
  | [t] => if m = ['J', 'M', 'P'] then some (.jmp t) else none
  | [s, d] => if m = ['M', 'O', 'V'] then some (.mov s d) else none
  | _ => none

/-- The comma-separated items of a line. -/
def items (l : List Char) : List (List Char) :=
  if trimChars l = [] then [] else (splitChars ',' l).map trimChars

/-- An instruction, a pseudo-instruction or a `.word` line (30_encoding.md R64, R65). -/
def readBody (l : List Char) : Option (List AsmLine) :=
  let body := trimChars l
  let m := body.takeWhile (fun c => !isBlank c)
  let rest := items (body.dropWhile (fun c => !isBlank c))
  if body = [] then some []
  else if m = ['.', 'w', 'o', 'r', 'd'] then
    (rest.mapM readValue).map (fun vs => [.word vs])
  else
    match rest.mapM readOperand with
    | none => none
    | some operands =>
      match mnemonicTable.lookup m with
      | some op => some [.instr op operands]
      | none => (pseudoLine m operands).map (fun line => [line])

/-- The pieces of a line between its colons: labels, then the body (30_encoding.md R64). -/
def readPieces : List (List Char) → Option (List AsmLine)
  | [] => some []
  | [body] => readBody body
  | name :: ps =>
    if isName (trimChars name) then
      (readPieces ps).map (fun ls => .label (String.ofList (trimChars name)) :: ls)
    else none

/-- The lines of a text (30_encoding.md R64). -/
def readLines (text : List Char) : Option (List AsmLine) :=
  ((splitChars '\n' text).mapM (fun l => readPieces (splitChars ':' l))).map List.flatten

/-- The image a text assembles to (30_encoding.md R64). -/
def assembleText (text : List Char) : Option (List Word) :=
  match readLines text with
  | some ls => assemble ls
  | none => none

end Sys2Proof.Machine
end

