-- ==== Sys2Proof/Machine/Run.lean ====
section
/-! DEFINITION. `Run` (60_exceptions.md R121): Steps until an event. A `Run` may never return
(R126), so it is given by its first `n` Steps (log entry 8). -/

namespace Sys2Proof.Machine

/-- The Step's outcome ends a `Run`: every outcome but `Continue` (60_exceptions.md R121). -/
def Event.endsRun : Event → Bool
  | .none => false
  | .continued => false
  | .output _ => true
  | .halted => true
  | .faulted _ => true
  | .refused _ => true

/-- `Run()` given `n` Steps (60_exceptions.md R121): the state in which it returns, whose `event` is
what it returns, or none if it has not returned within them. -/
def runFor : Nat → State → Option State
  | 0, _ => none
  | n + 1, s =>
    match step s with
    | .next t => if t.event.endsRun then some t else runFor n t
    | .fault _ => none
    | .refused _ => none

/-- `Run()` from `s` returns in the state `t` (60_exceptions.md R121). -/
def RunReturns (s t : State) : Prop := ∃ n, runFor n s = some t

/-- `Run()` from `s` does not return (60_exceptions.md R126). -/
def RunHangs (s : State) : Prop := ∀ n, runFor n s = none

/-- The commands a host issues on a Program it owns, but `Run`, which may not return
(60_exceptions.md R134). Overlapping commands (R125) have no move here (log entry 17). -/
inductive Command where
  | step
  | setInput (v : Word)
  | snapshot
deriving DecidableEq, Repr

/-- The Program after a command; `snapshot` changes nothing (60_exceptions.md R120, R123, R124). -/
def command (c : Command) (s : State) : Host.Outcome State Fault Refusal :=
  match c with
  | .step => step s
  | .setInput v => .next (s.setInput v)
  | .snapshot => .next s

/-- The host's duty (60_exceptions.md R134): no `Step` (and no `Run`) on a terminal Program. -/
def Command.allowed (c : Command) (s : State) : Prop :=
  match c with
  | .step => s.st = .ready
  | .setInput _ => True
  | .snapshot => True

end Sys2Proof.Machine
end

