-- ==== Sys2Proof/Machine/Network.lean ====
section
/-! DEFINITION. The amplifier-network host protocol (60_exceptions.md R129 to R133): a host that owns
several Programs, which share nothing. Each `Run` is given by its first `fuel` Steps (log entry 8). -/

namespace Sys2Proof.Machine

/-- The phase setting of one amplifier as its first input (60_exceptions.md R130). The spec states
no word for a sum outside int64, and none is made (log entry 9). -/
def phaseWord (bias : Int) (p : Nat) : Option Word :=
  if InInt64 (bias + p) then some (BitVec.ofInt 64 (bias + p)) else none

/-- One amplifier: `New(P, PHASE_BIAS + π[i], 0)` (60_exceptions.md R130). -/
def newAmp (cfg : Config) (bias : Int) (image : List Word) (p : Nat) : Option State :=
  match phaseWord bias p with
  | some w => newProgram cfg image w 0
  | none => none

/-- The amplifiers of one trial, in the order of the permutation `π` (60_exceptions.md R130). -/
def newAmps (cfg : Config) (bias : Int) (image : List Word) : List Nat → Option (List State)
  | [] => some []
  | p :: ps =>
    match newAmp cfg bias image p, newAmps cfg bias image ps with
    | some a, some as => some (a :: as)
    | _, _ => none

/-- A trial in progress (60_exceptions.md R131). -/
structure Trial where
  amps : List State
  signal : Word
  active : Nat
  last : Option Word
deriving DecidableEq, Repr

/-- A trial before its first round (60_exceptions.md R131). -/
def Trial.start (amps : List State) : Trial := { amps := amps, signal := 0, active := 0, last := none }

/-- How one round of a trial's loop ends (60_exceptions.md R131). -/
inductive Round where
  /-- An output was passed on and the loop goes on. -/
  | more (t : Trial)
  /-- The active amplifier halted: the loop ends. -/
  | ended (t : Trial)
  /-- The active amplifier faulted: the trial aborts. -/
  | aborted (t : Trial) (f : FaultRecord)
  /-- The `Run` was refused, or there is no active amplifier: a breach of the host's duty. -/
  | breach
  /-- The active amplifier's `Run` did not return within the Steps given. -/
  | unfinished
deriving DecidableEq, Repr

/-- The trial after its active amplifier produced `v` in the state `a` (60_exceptions.md R131). -/
def Trial.passOn (t : Trial) (a : State) (v : Word) : Trial :=
  { amps := t.amps.set t.active a
    signal := v
    active := (t.active + 1) % t.amps.length
    last := if t.active + 1 = t.amps.length then some v else t.last }

/-- One round: `SetInput(amp[i], signal)`, `Run(amp[i])` (60_exceptions.md R131). -/
def Trial.round (fuel : Nat) (t : Trial) : Round :=
  match t.amps[t.active]? with
  | none => .breach
  | some s =>
    match runFor fuel (s.setInput t.signal) with
    | none => .unfinished
    | some a =>
      match a.event with
      | .output v => .more (t.passOn a v)
      | .halted => .ended { t with amps := t.amps.set t.active a }
      | .faulted f => .aborted { t with amps := t.amps.set t.active a } f
      | .refused _ => .breach
      | .continued => .unfinished
      | .none => .unfinished

/-- How a trial ends (60_exceptions.md R131, R132). -/
inductive TrialResult where
  /-- `result(π)`: the last amplifier's last output. -/
  | value (v : Word)
  /-- The last amplifier never produced an output: the trial fails like a fault (R132, D22). -/
  | noOutput
  /-- A fault in one amplifier aborts the trial. -/
  | failed (f : FaultRecord)
  /-- The amplifiers could not be constructed, or a `Run` was refused. -/
  | breach
  /-- Not ended within the rounds and Steps given. -/
  | unfinished
deriving DecidableEq, Repr

/-- The loop of one trial given `rounds` rounds (60_exceptions.md R131, R132). -/
def Trial.loop (fuel : Nat) : Nat → Trial → TrialResult
  | 0, _ => .unfinished
  | n + 1, t =>
    match t.round fuel with
    | .more u => Trial.loop fuel n u
    | .ended u =>
      match u.last with
      | some v => .value v
      | none => .noOutput
    | .aborted _ f => .failed f
    | .breach => .breach
    | .unfinished => .unfinished

/-- One trial of the permutation `π` on freshly constructed amplifiers (60_exceptions.md R130 to
R133). -/
def trial (cfg : Config) (net : NetConfig) (fuel rounds : Nat) (image : List Word) (π : List Nat) :
    TrialResult :=
  match newAmps cfg net.phaseBias image π with
  | some amps => (Trial.start amps).loop fuel rounds
  | none => .breach

/-- `x` put in at every place of a list. -/
def insertions (x : Nat) : List Nat → List (List Nat)
  | [] => [[x]]
  | y :: ys => (x :: y :: ys) :: (insertions x ys).map (fun l => y :: l)

/-- Every permutation of `0 .. k-1` (60_exceptions.md R133). -/
def permutations : Nat → List (List Nat)
  | 0 => [[]]
  | k + 1 => (permutations k).flatMap (insertions k)

/-- The greater of two words as signed integers. -/
def maxWord (a b : Word) : Word := if a.toInt < b.toInt then b else a

/-- The maximum of trial results, the first that is no value if there is one: a failed trial fails
the whole search (60_exceptions.md R133, D22; log entry 18). -/
def bestOf : TrialResult → List TrialResult → TrialResult
  | best, [] => best
  | .value a, .value b :: rs => bestOf (.value (maxWord a b)) rs
  | .value _, r :: _ => r
  | r, _ :: _ => r

/-- The exhaustive search over every permutation (60_exceptions.md R133). -/
def search (cfg : Config) (net : NetConfig) (fuel rounds : Nat) (image : List Word) : TrialResult :=
  match (permutations net.ampCount).map (trial cfg net fuel rounds image) with
  | [] => .breach
  | r :: rs => bestOf r rs

end Sys2Proof.Machine
end

