-- ==== Sys2Proof/Safety.lean ====
section
/-! DEFINITION. What claims speak of: the invariant of a Program, what a slot names and reads, which
fault a slot raises, and when an instruction executes normally. -/

namespace Sys2Proof.Machine

/-- The invariant of a Program: parameters in range (00_scope.md R5), memory in canonical form with
`len <= MEM_LIMIT` (10_state.md R11), `ip` at most 2^63 (20_memory.md R33), a fault record that names
the faulting instruction's own `ip` (60_exceptions.md R113) and never `UnknownInputSlot`
(10_state.md R16), and a refused mark only on a terminal Program (10_state.md R18). -/
structure State.Inv (s : State) : Prop where
  cfg_wf : s.cfg.wf
  mem_wf : s.mem.wf
  len_le : s.mem.len ≤ s.cfg.memLimit
  ip_le : s.ip ≤ 2 ^ 63
  fault_ip : ∀ r, s.st = .faulted r → r.ip = s.ip
  fault_known : ∀ r, s.st = .faulted r → r.fault ≠ .unknownInputSlot
  refused_terminal : s.refused = true → s.st ≠ .ready

/-- The int64 a Position or Relative slot resolves to, before its sign is checked
(20_memory.md R35, R36). -/
inductive SlotValue (s : State) (p : Param) : Word → Prop where
  | position : p.mode = .position → SlotValue s p p.word
  | relative (x : Word) : p.mode = .relative →
      fit64 s.cfg.arithOverflow (s.rb.toInt + p.word.toInt) = .ok x → SlotValue s p x

/-- A Position or Relative slot names the address `a` (20_memory.md R35, R36). -/
def Resolves (s : State) (p : Param) (a : Nat) : Prop := ∃ x, SlotValue s p x ∧ x.toInt = a

/-- A source slot reads the value `v` and makes `len` at least `l` (20_memory.md R31, R35, R37):
an Immediate slot touches no memory. -/
inductive SourceReads (s : State) (p : Param) : Word → Nat → Prop where
  | immediate : p.mode = .immediate → SourceReads s p p.word 0
  | memory (a : Nat) : Resolves s p a → a < s.cfg.memLimit →
      SourceReads s p (s.mem.get a) (a + 1)

/-- The fault a Position or Relative slot raises while it is resolved, or by the access at the
address it names (20_memory.md R33, R35, R36, R38). -/
inductive SlotFaults (s : State) (p : Param) : Fault → Prop where
  | overflow : p.mode = .relative → s.cfg.arithOverflow = .fault →
      ¬ InInt64 (s.rb.toInt + p.word.toInt) → SlotFaults s p .arithmeticOverflow
  | negative (x : Word) : SlotValue s p x → x.toInt < 0 → SlotFaults s p (.negativeAddress x)
  | exhausted (a : Nat) : Resolves s p a → s.cfg.memLimit ≤ a →
      SlotFaults s p (.memoryExhausted a)

/-- The fault destination slot `k` raises: an Immediate one always does (20_memory.md R36). -/
inductive DestFaults (s : State) (k : Nat) (p : Param) : Fault → Prop where
  | immediate : p.mode = .immediate → DestFaults s k p (.immediateDestination k)
  | slot (f : Fault) : SlotFaults s p f → DestFaults s k p f

/-- The instruction takes the fault `f` (60_exceptions.md R111): nothing of the state changes but
`st`, and the host is handed the record. -/
def TakesFault (i : Instr) (s : State) (f : Fault) : Prop :=
  exec i s = .next { s with st := .faulted ⟨f, s.ip⟩, event := .faulted ⟨f, s.ip⟩ }

/-- The `n` words of the instruction at `ip` can be fetched (20_memory.md R33, 30_encoding.md R57). -/
abbrev Fetchable (s : State) (n : Nat) : Prop := s.ip + n ≤ s.cfg.memLimit

/-- A source slot can be read. -/
def SourceOk (s : State) (p : Param) : Prop := ∃ v l, SourceReads s p v l

/-- A destination slot can be written. -/
def DestOk (s : State) (p : Param) : Prop := ∃ a, Resolves s p a ∧ a < s.cfg.memLimit

/-- An int64 result is defined for `x`: it fits, or `ARITH_OVERFLOW = Wrap` (00_scope.md R7). -/
def Fits (s : State) (x : Int) : Prop := InInt64 x ∨ s.cfg.arithOverflow = .wrap

/-- A jump with condition `c` and target slot `t` can complete, taken or not (42_control.md R90). -/
def JumpOk (s : State) (taken : Word → Prop) (c t : Param) : Prop :=
  ∃ x l, SourceReads s c x l ∧
    (taken x → ∃ y m, SourceReads s t y m ∧ 0 ≤ y.toInt)

/-- When an instruction executes normally, by its rule's operands, exceptions and pseudocode
(40_arith_compare.md R70 to R73, 41_io.md R80, R81, 42_control.md R90 to R92,
43_relative_base.md R100). -/
def Executable (i : Instr) (s : State) : Prop :=
  Fetchable s i.length ∧
  match i with
  | .add a b d =>
    (∃ x l y m, SourceReads s a x l ∧ SourceReads s b y m ∧ Fits s (x.toInt + y.toInt)) ∧ DestOk s d
  | .mul a b d =>
    (∃ x l y m, SourceReads s a x l ∧ SourceReads s b y m ∧ Fits s (x.toInt * y.toInt)) ∧ DestOk s d
  | .inp d => DestOk s d
  | .out a => SourceOk s a
  | .jt c t => JumpOk s (fun x => x ≠ 0#64) c t
  | .jf c t => JumpOk s (fun x => x = 0#64) c t
  | .lt a b d => SourceOk s a ∧ SourceOk s b ∧ DestOk s d
  | .eq a b d => SourceOk s a ∧ SourceOk s b ∧ DestOk s d
  | .arb v => ∃ x l, SourceReads s v x l ∧ Fits s (s.rb.toInt + x.toInt)
  | .hlt => True

end Sys2Proof.Machine
end

