-- ==== Sys2Proof/Certificates/Slice0/Obligations.lean ====
section
/-! DEFINITION. The statements for the provers, from the numbered rules of spec/.

Two forms of the model stand in them. The outcome of a Step (60_exceptions.md R120: Continue,
Output(v), Halt, Fault(f)) and a refusal (R122) stand in the field `event` of the next state: the
field is the model's (log entry 3), what it says is R120's to R122's. A fault is taken, so the Step
that raises it answers a next state whose status is `Faulted` (log entry 4): what that state holds is
R111's, its discarding of growth being the spec's own decision D11.

Where a clause rests on a point the spec marks as its own decision (92_eei_decisions.md) or as
derived, the docstring names it. For the instructions these are: D6 (Immediate destinations), D7
(`fit64`), D8 (`MEM_LIMIT`), D9 (negative addresses and targets), D10 (growing fetches), D11 (atomic
faults), D12 (the order of faults). -/

namespace Sys2Proof.Machine

/-! Shapes shared by several statements. -/

/-- The rule of a three-slot instruction (40_arith_compare.md R70 to R73) for the constructor `mk`
with opcode `code`, whose computed word `r` for the operand values `x` and `y` is given by `res`: its
words; every fault of its fetches and slots, in the order of 60_exceptions.md R112; and, where no line
faults, its result and its frame. The frame is the record update: `rb`, `in1`, `in2`, `cur`, `st`,
`refused` and the parameters keep their values. -/
def StoreRule (mk : Param → Param → Param → Instr) (code : Nat)
    (res : State → Word → Word → Word → Prop) : Prop :=
  ∀ (s : State) (a b d : Param),
    encode (mk a b d) =
      [BitVec.ofNat 64 (code + 100 * a.mode.digit + 1000 * b.mode.digit + 10000 * d.mode.digit),
        a.word, b.word, d.word] ∧
    (¬ Fetchable s 4 →
      TakesFault (mk a b d) s (.memoryExhausted (max s.ip s.cfg.memLimit))) ∧
    (Fetchable s 4 →
      (∀ f, SlotFaults s a f → TakesFault (mk a b d) s f) ∧
      ∀ x l, SourceReads s a x l →
        (∀ f, SlotFaults s b f → TakesFault (mk a b d) s f) ∧
        ∀ y m, SourceReads s b y m → ∀ r, res s x y r →
          (∀ f, DestFaults s 2 d f → TakesFault (mk a b d) s f) ∧
          ∀ e, Resolves s d e → e < s.cfg.memLimit →
            ∃ mem', exec (mk a b d) s =
                .next { s with mem := mem', ip := s.ip + 4, event := .continued } ∧
              mem'.get e = r ∧
              (∀ c, c ≠ e → mem'.get c = s.mem.get c) ∧
              mem'.len = max (max s.mem.len (s.ip + 4)) (max (max l m) (e + 1)))

/-- The overflow of ADD and MUL (40_arith_compare.md R70, R71, R74): under `ARITH_OVERFLOW = Fault` a
result outside int64 is the fault reported once both sources have been read. -/
def AluOverflowRule (mk : Param → Param → Param → Instr) (alu : Int → Int → Int) : Prop :=
  ∀ (s : State) (a b d : Param) (x y : Word) (l m : Nat),
    Fetchable s 4 → SourceReads s a x l → SourceReads s b y m →
    s.cfg.arithOverflow = .fault → ¬ InInt64 (alu x.toInt y.toInt) →
    TakesFault (mk a b d) s .arithmeticOverflow

/-- The rule of a conditional jump (42_control.md R90, R91) for the constructor `mk` with opcode
`code`, taken when `taken` holds of the condition: its words; every fault in order; and its effect on
`ip`, with the memory growing only by the accesses made. Slot 1 is read only when taken. -/
def JumpRule (mk : Param → Param → Instr) (code : Nat) (taken : Word → Prop) : Prop :=
  ∀ (s : State) (c t : Param),
    encode (mk c t) =
      [BitVec.ofNat 64 (code + 100 * c.mode.digit + 1000 * t.mode.digit), c.word, t.word] ∧
    (¬ Fetchable s 3 → TakesFault (mk c t) s (.memoryExhausted (max s.ip s.cfg.memLimit))) ∧
    (Fetchable s 3 →
      (∀ f, SlotFaults s c f → TakesFault (mk c t) s f) ∧
      ∀ x l, SourceReads s c x l →
        (¬ taken x →
          ∃ mem', exec (mk c t) s =
              .next { s with mem := mem', ip := s.ip + 3, event := .continued } ∧
            (∀ a, mem'.get a = s.mem.get a) ∧
            mem'.len = max (max s.mem.len (s.ip + 3)) l) ∧
        (taken x →
          (∀ f, SlotFaults s t f → TakesFault (mk c t) s f) ∧
          ∀ y m, SourceReads s t y m →
            (y.toInt < 0 → TakesFault (mk c t) s (.negativeAddress y)) ∧
            (0 ≤ y.toInt →
              ∃ mem', exec (mk c t) s =
                  .next { s with mem := mem', ip := y.toNat, event := .continued } ∧
                (∀ a, mem'.get a = s.mem.get a) ∧
                mem'.len = max (max s.mem.len (s.ip + 3)) (max l m))))

/-- Mode-digit position `k` is checked by the decoder for the opcode `op`: it is a slot, or surplus
digits are validated (30_encoding.md R55, R58). -/
def Checked (sd : SurplusDigits) (op : Op) (k : Nat) : Prop :=
  k < op.paramCount ∨ sd = .validate

/-- The mode of slot `k` of the word with number `n`, `position` where `op` has no such slot. -/
def SlotModeIs (op : Op) (n k : Nat) (m : Mode) : Prop :=
  m.digit = if k < op.paramCount then digit (k + 2) n else 0

/-- The value of a trial's result, if it has one. -/
def ResultIs (r : TrialResult) (v : Word) : Prop := r = .value v

/-- Every amplifier of a trial is `Ready` and there is an active one. -/
def TrialReady (t : Trial) : Prop :=
  t.active < t.amps.length ∧ ∀ a ∈ t.amps, a.st = .ready

end Sys2Proof.Machine

open Sys2Proof Sys2Proof.Machine

/-! ## Encoding (30_encoding.md) -/

/-- The canonical word, and that every instruction's words decode back to it, whatever the
surplus-digit setting and whatever words follow: what 30_encoding.md section 3 derives from R51 and
R55. -/
def Obligations.DecodeOfEncodeGivesInstruction : Prop :=
  ∀ (sd : SurplusDigits) (i : Instr) (rest : List Word),
    (encode i).head? = some (BitVec.ofNat 64 (i.op.code + 100 * (modeAt i.params 0).digit +
      1000 * (modeAt i.params 1).digit + 10000 * (modeAt i.params 2).digit)) ∧
    (encode i).length = 1 + i.op.paramCount ∧
    decode sd (encode i ++ rest) = .ok (i, rest)

/-- R55, R56 (decisions D4, D12): the whole decoder. A negative word or an opcode outside the ten is `InvalidOpcode`;
otherwise the first checked position whose digit is above 2 is reported, and with none the opcode and
the modes are the word's digits. -/
def Obligations.DecoderRule : Prop :=
  ∀ (sd : SurplusDigits) (w : Word),
    ((w.toInt < 0 ∨ ∀ op : Op, w.toNat % 100 ≠ op.code) →
      decodeWord sd w = .error (.invalidOpcode w)) ∧
    ∀ op : Op, 0 ≤ w.toInt → w.toNat % 100 = op.code →
      (∀ k, Checked sd op k → 2 < digit (k + 2) w.toNat →
        (∀ j, j < k → Checked sd op j → digit (j + 2) w.toNat ≤ 2) →
        decodeWord sd w = .error (.invalidAddressingMode w k (digit (k + 2) w.toNat))) ∧
      ((∀ k, Checked sd op k → digit (k + 2) w.toNat ≤ 2) →
        ∃ d, decodeWord sd w = .ok d ∧ d.op = op ∧ SlotModeIs op w.toNat 0 d.mode0 ∧
          SlotModeIs op w.toNat 1 d.mode1 ∧ SlotModeIs op w.toNat 2 d.mode2)

/-- A word with no surplus digit above 2 decodes the same under both settings: what the spec derives
in R58 from R55. -/
def Obligations.SurplusSettingsAgree : Prop :=
  ∀ (w : Word), (∀ op : Op, w.toNat % 100 = op.code →
      ∀ k, op.paramCount ≤ k → digit (k + 2) w.toNat ≤ 2) →
    decodeWord .ignore w = decodeWord .validate w

/-- R57, R62: a decoded instruction's opcode is the first word's last two digits, its operand words
are the following words unchanged, and what is left is everything after `1 + n` words. That an operand
word missing at the end of the list is 0 is no rule of the spec but the model's own choice for lists
(log entry 11). -/
def Obligations.DecodeTakesOpcodeAndOperandWords : Prop :=
  ∀ (sd : SurplusDigits) (ws : List Word) (i : Instr) (rest : List Word),
    decode sd ws = .ok (i, rest) →
    i.op.code = (ws.getD 0 0#64).toNat % 100 ∧
    i.params.map Param.word = (List.range i.op.paramCount).map (fun k => ws.getD (k + 1) 0#64) ∧
    rest = ws.drop (1 + i.op.paramCount)

/-- R54: the parameter count of each opcode, and that a decoded instruction has that many operand
words however many digits its word has. -/
def Obligations.ParameterCountRule : Prop :=
  (∀ op : Op, op.paramCount =
    if op.code ∈ [1, 2, 7, 8] then 3 else if op.code ∈ [5, 6] then 2
    else if op.code ∈ [3, 4, 9] then 1 else 0) ∧
  ∀ (sd : SurplusDigits) (ws : List Word) (i : Instr) (rest : List Word),
    decode sd ws = .ok (i, rest) → i.params.length = i.op.paramCount ∧
      i.op.code = (ws.getD 0 0#64).toNat % 100

/-- Words of 95_test_vectors.md section 2 decode as listed there, one per opcode and some illegal. -/
def Obligations.VectorWordsDecode : Prop :=
  ∀ sd : SurplusDigits,
    decodeWord sd 21001#64 = .ok ⟨.add, .position, .immediate, .relative⟩ ∧
    decodeWord sd 1002#64 = .ok ⟨.mul, .position, .immediate, .position⟩ ∧
    decodeWord sd 203#64 = .ok ⟨.inp, .relative, .position, .position⟩ ∧
    decodeWord sd 104#64 = .ok ⟨.out, .immediate, .position, .position⟩ ∧
    decodeWord sd 1105#64 = .ok ⟨.jt, .immediate, .immediate, .position⟩ ∧
    decodeWord sd 2106#64 = .ok ⟨.jf, .immediate, .relative, .position⟩ ∧
    decodeWord sd 1107#64 = .ok ⟨.lt, .immediate, .immediate, .position⟩ ∧
    decodeWord sd 1008#64 = .ok ⟨.eq, .position, .immediate, .position⟩ ∧
    decodeWord sd 109#64 = .ok ⟨.arb, .immediate, .position, .position⟩ ∧
    decodeWord sd 99#64 = .ok ⟨.hlt, .position, .position, .position⟩ ∧
    decodeWord sd 3001#64 = .error (.invalidAddressingMode 3001#64 1 3) ∧
    decodeWord sd (BitVec.ofInt 64 (-1)) = .error (.invalidOpcode (BitVec.ofInt 64 (-1)))

/-! ## Arithmetic, memory and operands (00_scope.md R7, 20_memory.md) -/

/-- R7: `fit64` (decision D7). -/
def Obligations.FitSixtyFourRule : Prop :=
  ∀ (ov : ArithOverflow) (x : Int),
    (InInt64 x → ∃ y, fit64 ov x = .ok y ∧ y.toInt = x) ∧
    (¬ InInt64 x → ov = .fault → fit64 ov x = .error .arithmeticOverflow) ∧
    (¬ InInt64 x → ov = .wrap →
      ∃ y, fit64 ov x = .ok y ∧ (∃ k : Int, x = y.toInt + k * 2 ^ 64) ∧
        ∀ z : Word, (∃ k : Int, x = z.toInt + k * 2 ^ 64) → z = y)

/-- R31 (with the limit of R33, decision D8): the growing read. A word past `len` reads 0, `len` becomes at least `a + 1`, no word
changes its value, and nothing else of the state changes. -/
def Obligations.MemReadRule : Prop :=
  ∀ (a : Nat) (s : State), s.mem.wf →
    (s.cfg.memLimit ≤ a → memRead a s = .error (.memoryExhausted a)) ∧
    (a < s.cfg.memLimit →
      ∃ mem', memRead a s = .ok (if a < s.mem.len then s.mem.get a else 0#64, { s with mem := mem' }) ∧
        mem'.len = (if s.mem.len ≤ a then a + 1 else s.mem.len) ∧
        (∀ b, mem'.get b = s.mem.get b) ∧
        (∀ b, s.mem.len ≤ b → mem'.get b = 0#64))

/-- R32 (with the limit of R33, decision D8): the growing write. Only `M[a]` and, on growth, `len` and the new zero words change. -/
def Obligations.MemWriteRule : Prop :=
  ∀ (a : Nat) (v : Word) (s : State), s.mem.wf →
    (s.cfg.memLimit ≤ a → memWrite a v s = .error (.memoryExhausted a)) ∧
    (a < s.cfg.memLimit →
      ∃ mem', memWrite a v s = .ok { s with mem := mem' } ∧
        mem'.len = (if s.mem.len ≤ a then a + 1 else s.mem.len) ∧
        mem'.get a = v ∧
        (∀ b, b ≠ a → mem'.get b = s.mem.get b) ∧
        (∀ b, s.mem.len ≤ b → b ≠ a → mem'.get b = 0#64))

/-- R35, R37: `ReadParam` under each mode (decisions D7, D9). -/
def Obligations.ReadParamRule : Prop :=
  ∀ (s : State) (o : Word),
    (o.toInt < 0 → readParam ⟨.position, o⟩ s = .error (.negativeAddress o)) ∧
    (0 ≤ o.toInt → readParam ⟨.position, o⟩ s = memRead o.toNat s) ∧
    readParam ⟨.immediate, o⟩ s = .ok (o, s) ∧
    (∀ f, fit64 s.cfg.arithOverflow (s.rb.toInt + o.toInt) = .error f →
      readParam ⟨.relative, o⟩ s = .error f) ∧
    ∀ a, fit64 s.cfg.arithOverflow (s.rb.toInt + o.toInt) = .ok a →
      (a.toInt < 0 → readParam ⟨.relative, o⟩ s = .error (.negativeAddress a)) ∧
      (0 ≤ a.toInt → readParam ⟨.relative, o⟩ s = memRead a.toNat s)

/-- R36: `DestAddr` under each mode; no memory is read (decisions D6, D7, D9). -/
def Obligations.DestAddrRule : Prop :=
  ∀ (s : State) (k : Nat) (o : Word),
    (o.toInt < 0 → destAddr k ⟨.position, o⟩ s = .error (.negativeAddress o)) ∧
    (0 ≤ o.toInt → destAddr k ⟨.position, o⟩ s = .ok o.toNat) ∧
    destAddr k ⟨.immediate, o⟩ s = .error (.immediateDestination k) ∧
    (∀ f, fit64 s.cfg.arithOverflow (s.rb.toInt + o.toInt) = .error f →
      destAddr k ⟨.relative, o⟩ s = .error f) ∧
    ∀ a, fit64 s.cfg.arithOverflow (s.rb.toInt + o.toInt) = .ok a →
      (a.toInt < 0 → destAddr k ⟨.relative, o⟩ s = .error (.negativeAddress a)) ∧
      (0 ≤ a.toInt → destAddr k ⟨.relative, o⟩ s = .ok a.toNat)

/-! ## The ten instructions -/

/-- R70: ADD. -/
def Obligations.AddRule : Prop :=
  StoreRule .add 1 (fun s x y r => fit64 s.cfg.arithOverflow (x.toInt + y.toInt) = .ok r) ∧
  AluOverflowRule .add (fun x y => x + y)

/-- R71: MUL. -/
def Obligations.MulRule : Prop :=
  StoreRule .mul 2 (fun s x y r => fit64 s.cfg.arithOverflow (x.toInt * y.toInt) = .ok r) ∧
  AluOverflowRule .mul (fun x y => x * y)

/-- R72: LT compares as signed integers; the comparison itself cannot overflow. -/
def Obligations.LtRule : Prop :=
  StoreRule .lt 7 (fun _ x y r => r = if x.toInt < y.toInt then 1#64 else 0#64)

/-- R73: EQ compares for identity of value. -/
def Obligations.EqRule : Prop :=
  StoreRule .eq 8 (fun _ x y r => r = if x = y then 1#64 else 0#64)

/-- R80: IN stores `in1` the first time and `in2` ever after; a fault leaves `cur`. -/
def Obligations.InRule : Prop :=
  ∀ (s : State) (d : Param),
    encode (.inp d) = [BitVec.ofNat 64 (3 + 100 * d.mode.digit), d.word] ∧
    (¬ Fetchable s 2 → TakesFault (.inp d) s (.memoryExhausted (max s.ip s.cfg.memLimit))) ∧
    (Fetchable s 2 →
      (∀ f, DestFaults s 0 d f → TakesFault (.inp d) s f) ∧
      ∀ e, Resolves s d e → e < s.cfg.memLimit →
        ∃ mem', exec (.inp d) s =
            .next { s with mem := mem', cur := .second, ip := s.ip + 2, event := .continued } ∧
          mem'.get e = (if s.cur = .first then s.in1 else s.in2) ∧
          (∀ c, c ≠ e → mem'.get c = s.mem.get c) ∧
          mem'.len = max (max s.mem.len (s.ip + 2)) (e + 1))

/-- R81, C1: OUT hands out the value its slot's own mode reads; no word is written, `st` stays. -/
def Obligations.OutRule : Prop :=
  ∀ (s : State) (a : Param),
    encode (.out a) = [BitVec.ofNat 64 (4 + 100 * a.mode.digit), a.word] ∧
    (¬ Fetchable s 2 → TakesFault (.out a) s (.memoryExhausted (max s.ip s.cfg.memLimit))) ∧
    (Fetchable s 2 →
      (∀ f, SlotFaults s a f → TakesFault (.out a) s f) ∧
      ∀ v l, SourceReads s a v l →
        ∃ mem', exec (.out a) s = .next { s with mem := mem', ip := s.ip + 2, event := .output v } ∧
          (∀ c, mem'.get c = s.mem.get c) ∧
          mem'.len = max (max s.mem.len (s.ip + 2)) l)

/-- R90 (a negative target: decision D9). -/
def Obligations.JtRule : Prop := JumpRule .jt 5 (fun x => x ≠ 0#64)

/-- R91 (a negative target: decision D9). -/
def Obligations.JfRule : Prop := JumpRule .jf 6 (fun x => x = 0#64)

/-- R92: HLT changes the status and nothing else; at an `ip` below `len`, as a fetched 99 is, not even
`len`. -/
def Obligations.HltRule : Prop :=
  encode .hlt = [99#64] ∧
  ∀ s : State,
    (s.cfg.memLimit ≤ s.ip → TakesFault .hlt s (.memoryExhausted s.ip)) ∧
    (s.ip < s.cfg.memLimit →
      (s.ip < s.mem.len → exec .hlt s = .next { s with st := .halted, event := .halted }) ∧
      ∃ mem', exec .hlt s = .next { s with mem := mem', st := .halted, event := .halted } ∧
        (∀ c, mem'.get c = s.mem.get c) ∧ mem'.len = max s.mem.len (s.ip + 1))

/-- R100: a Relative slot uses the old `rb`, and only `rb` and `ip` change besides growth. -/
def Obligations.ArbRule : Prop :=
  ∀ (s : State) (v : Param),
    encode (.arb v) = [BitVec.ofNat 64 (9 + 100 * v.mode.digit), v.word] ∧
    (¬ Fetchable s 2 → TakesFault (.arb v) s (.memoryExhausted (max s.ip s.cfg.memLimit))) ∧
    (Fetchable s 2 →
      (∀ f, SlotFaults s v f → TakesFault (.arb v) s f) ∧
      ∀ x l, SourceReads s v x l →
        (∀ f, fit64 s.cfg.arithOverflow (s.rb.toInt + x.toInt) = .error f →
          TakesFault (.arb v) s f) ∧
        ∀ r, fit64 s.cfg.arithOverflow (s.rb.toInt + x.toInt) = .ok r →
          ∃ mem', exec (.arb v) s =
              .next { s with mem := mem', rb := r, ip := s.ip + 2, event := .continued } ∧
            (∀ c, mem'.get c = s.mem.get c) ∧
            mem'.len = max (max s.mem.len (s.ip + 2)) l)

/-- Every instruction completes exactly where its rule says: under `Executable` it answers a next
state of its own effect, with no fault recorded. -/
def Obligations.EveryInstructionCompletes : Prop :=
  ∀ (i : Instr) (s : State), Executable i s →
    ∃ t, exec i s = .next t ∧
      t.st = (if i = .hlt then .halted else s.st) ∧
      ((∃ v, t.event = .output v ∧ ∃ a, i = .out a) ∨
        (t.event = .halted ∧ i = .hlt) ∨
        (t.event = .continued ∧ i ≠ .hlt ∧ ∀ a, i ≠ .out a))

/-- Where an instruction is not executable it takes a fault: the conditions leave no case out. -/
def Obligations.NotExecutableTakesFault : Prop :=
  ∀ (i : Instr) (s : State), ¬ Executable i s → ∃ f, TakesFault i s f

/-- R36, R60 (decision D6): an instruction with an Immediate destination decodes but never completes. -/
def Obligations.ImmediateDestinationNeverCompletes : Prop :=
  ∀ (i : Instr) (s : State), i.wellFormed = false →
    (∀ (sd : SurplusDigits) (rest : List Word), decode sd (encode i ++ rest) = .ok (i, rest)) ∧
    ∃ f, TakesFault i s f

/-- R65 (decision D15): each pseudo-instruction's line expands to exactly one instruction's line; and
`NOP` only advances `ip` by 3, `MOV s, d` copies, `JMP t` goes to the value of `t`. That the lines'
words are those of `pseudoNop`, `pseudoMov` and `pseudoJmp` is `AssemblyLineRule`. -/
def Obligations.PseudoInstructionsRule : Prop :=
  (∀ t d : AsmOperand,
    (AsmLine.jmp t).expand = .instr .jt [.imm (.lit 1#64), t] ∧
    (AsmLine.mov t d).expand = .instr .add [t, .imm (.lit 0#64), d] ∧
    AsmLine.nop.expand = .instr .jt [.imm (.lit 0#64), .imm (.lit 0#64)]) ∧
  ∀ s : State,
    (Fetchable s 3 → ∃ mem', exec pseudoNop s =
        .next { s with mem := mem', ip := s.ip + 3, event := .continued } ∧
      (∀ a, mem'.get a = s.mem.get a) ∧ mem'.len = max s.mem.len (s.ip + 3)) ∧
    (∀ (p d : Param) (v : Word) (l e : Nat), Fetchable s 4 → SourceReads s p v l → Resolves s d e →
      e < s.cfg.memLimit → ∃ mem', exec (pseudoMov p d) s =
          .next { s with mem := mem', ip := s.ip + 4, event := .continued } ∧
        mem'.get e = v ∧ ∀ a, a ≠ e → mem'.get a = s.mem.get a) ∧
    (∀ (t : Param) (v : Word) (l : Nat), Fetchable s 3 → SourceReads s t v l → 0 ≤ v.toInt →
      ∃ mem', exec (pseudoJmp t) s =
          .next { s with mem := mem', ip := v.toNat, event := .continued } ∧
        ∀ a, mem'.get a = s.mem.get a)

/-- R64, R65 (decision D15): a line's encoding is its canonical instruction word and its operand
words; a pseudo-instruction's line encodes as the one instruction it expands to. -/
def Obligations.AssemblyLineRule : Prop :=
  ∀ labels : List (String × Nat),
    (∀ (operands : List AsmOperand) (i : Instr),
      operands.mapM (AsmOperand.resolve labels) = some i.params →
      (AsmLine.instr i.op operands).words labels = some (encode i) ∧
      (AsmLine.instr i.op operands).size = (encode i).length) ∧
    (∀ (t : AsmOperand) (p : Param), t.resolve labels = some p →
      (AsmLine.jmp t).words labels = some (encode (pseudoJmp p)) ∧
      (AsmLine.jmp t).size = (encode (pseudoJmp p)).length) ∧
    (∀ (t u : AsmOperand) (p d : Param), t.resolve labels = some p → u.resolve labels = some d →
      (AsmLine.mov t u).words labels = some (encode (pseudoMov p d)) ∧
      (AsmLine.mov t u).size = (encode (pseudoMov p d)).length) ∧
    AsmLine.nop.words labels = some (encode pseudoNop) ∧
    AsmLine.nop.size = (encode pseudoNop).length

/-! ## Frames over all instructions -/

/-- R13: only ARB writes `rb`. -/
def Obligations.OnlyArbWritesRelativeBase : Prop :=
  ∀ (i : Instr) (s t : State), exec i s = .next t → (∀ v, i ≠ .arb v) → t.rb = s.rb

/-- R14, R15, R20: no Step writes `in1`, `in2` or a parameter. -/
def Obligations.StepKeepsInputsAndParameters : Prop :=
  ∀ s t : State, step s = .next t → t.in1 = s.in1 ∧ t.in2 = s.in2 ∧ t.cfg = s.cfg

/-- R16: an IN that completes leaves the cursor at `Second`; nothing else changes it, and once at
`Second` it never changes again. -/
def Obligations.CursorMovesOnce : Prop :=
  (∀ s t : State, step s = .next t → s.cur = .second → t.cur = .second) ∧
  (∀ (d : Param) (s t : State), exec (.inp d) s = .next t → t.event = .continued →
    t.cur = .second) ∧
  ∀ (i : Instr) (s t : State), exec i s = .next t → t.cur ≠ s.cur →
    (∃ d, i = .inp d) ∧ t.cur = .second ∧ t.event = .continued

/-- R42, R44: an instruction writes at most the word its destination slot names; one without a
destination slot writes none. -/
def Obligations.OnlyTheDestinationIsWritten : Prop :=
  ∀ (i : Instr) (s t : State), exec i s = .next t →
    (i.dest = none → ∀ a, t.mem.get a = s.mem.get a) ∧
    ∀ d, i.dest = some d → ∀ a, ¬ Resolves s d a → t.mem.get a = s.mem.get a

/-- R11: `len` never shrinks and never passes `MEM_LIMIT`. -/
def Obligations.LengthNeverShrinks : Prop :=
  ∀ s t : State, step s = .next t →
    s.mem.len ≤ t.mem.len ∧ (s.mem.len ≤ s.cfg.memLimit → t.mem.len ≤ t.cfg.memLimit)

/-! ## The Step -/

/-- A Step on a `Ready` Program whose word at `ip` decodes runs the decoded instruction: nothing
stands around `exec`. -/
def Obligations.StepRunsDecodedInstruction : Prop :=
  ∀ (s : State) (d : Decoded), s.st = .ready → s.ip < s.cfg.memLimit →
    decodeWord s.cfg.surplusDigits (s.mem.get s.ip) = .ok d →
    step s = exec (d.build fun k => s.mem.get (s.ip + 1 + k)) s

/-- R120, and what the spec derives in R46: a Step runs whatever instruction's words stand at `ip` now. -/
def Obligations.StepRunsEncodedInstruction : Prop :=
  ∀ (s : State) (i : Instr), s.st = .ready → s.ip < s.cfg.memLimit →
    (∀ k, k < (encode i).length → s.mem.get (s.ip + k) = (encode i).getD k 0#64) →
    step s = exec i s

/-- R112 points 1 to 3, R33: the faults before an instruction executes. -/
def Obligations.FetchAndDecodeFaults : Prop :=
  ∀ s : State, s.st = .ready →
    (s.cfg.memLimit ≤ s.ip →
      step s = .next { s with
        st := .faulted ⟨.memoryExhausted s.ip, s.ip⟩
        event := .faulted ⟨.memoryExhausted s.ip, s.ip⟩ }) ∧
    (s.ip < s.cfg.memLimit →
      ∀ e, decodeWord s.cfg.surplusDigits (s.mem.get s.ip) = .error e →
        step s = .next { s with
          st := .faulted ⟨Fault.ofDecode e, s.ip⟩
          event := .faulted ⟨Fault.ofDecode e, s.ip⟩ })

/-- R111 (decision D11): a Step that faults changes nothing but `st`, and the record names the faulting
instruction's own `ip`. -/
def Obligations.FaultIsAtomicAndPrecise : Prop :=
  ∀ (s t : State) (r : FaultRecord), s.st = .ready → step s = .next t → t.st = .faulted r →
    r.ip = s.ip ∧ t = { s with st := .faulted r, event := .faulted r }

/-- R16, R110: `UnknownInputSlot` is never raised. -/
def Obligations.UnknownInputSlotNeverRaised : Prop :=
  ∀ (s t : State) (r : FaultRecord), s.st = .ready → step s = .next t → t.st = .faulted r →
    r.fault ≠ .unknownInputSlot

/-- R110: the numeric codes (decision D24). -/
def Obligations.FaultCodes : Prop :=
  ∀ (w a : Word) (k d n : Nat),
    (Fault.invalidOpcode w).code = 1 ∧ (Fault.invalidAddressingMode w k d).code = 2 ∧
    Fault.unknownInputSlot.code = 3 ∧ (Fault.negativeAddress a).code = 4 ∧
    (Fault.immediateDestination k).code = 5 ∧ Fault.arithmeticOverflow.code = 6 ∧
    (Fault.memoryExhausted n).code = 7

/-- R122 (decision D13): a Step or a Run on a terminal Program changes nothing but `refused`, and answers the refusal. -/
def Obligations.TerminalStepIsRefused : Prop :=
  ∀ s : State,
    (s.st = .halted →
      step s = .next { s with refused := true, event := .refused .runAfterHalt } ∧
      ∀ t, RunReturns s t ↔ t = { s with refused := true, event := .refused .runAfterHalt }) ∧
    (∀ r, s.st = .faulted r →
      step s = .next { s with refused := true, event := .refused .runAfterFault } ∧
      ∀ t, RunReturns s t ↔ t = { s with refused := true, event := .refused .runAfterFault })

/-- The transitions of `st` that the spec derives in R22 from R17, R92 and R111, by what the Step hands to the host. -/
def Obligations.StatusTransitions : Prop :=
  ∀ s t : State, step s = .next t →
    (s.st ≠ .ready → t.st = s.st) ∧
    (s.st = .ready →
      (t.st = .ready ∧ (t.event = .continued ∨ ∃ v, t.event = .output v)) ∨
      (t.st = .halted ∧ t.event = .halted ∧
        ∃ d, decodeWord s.cfg.surplusDigits (s.mem.get s.ip) = .ok d ∧ d.op = .hlt) ∨
      ∃ r, t.st = .faulted r ∧ t.event = .faulted r)

/-- R18 (decision D13): the refused mark is set by a Step on a terminal Program only, and never cleared. -/
def Obligations.RefusedMarkRule : Prop :=
  ∀ s t : State, step s = .next t → (t.refused = true ↔ s.refused = true ∨ s.st ≠ .ready)

/-- R150: each Step completes; the machine never stops without a next state. -/
def Obligations.EachStepCompletes : Prop :=
  ∀ s : State, ∃ t, step s = .next t

/-- Every Step keeps the invariant of a Program. -/
def Obligations.StepKeepsInvariant : Prop :=
  ∀ s t : State, s.Inv → step s = .next t → t.Inv

/-- The invariant holds right after reset. The values of the empty image, the inputs and the
parameters are the model's choice (log entry 2). -/
def Obligations.ResetMeetsInvariant : Prop := State.reset.Inv

/-- R140 (its precondition: decision D21): `New`. -/
def Obligations.NewRule : Prop :=
  ∀ (cfg : Config) (image : List Word) (first second : Word),
    image.length ≤ cfg.memLimit →
    ∃ s, newProgram cfg image first second = some s ∧
      s.mem.len = image.length ∧ (∀ a, s.mem.get a = image.getD a 0#64) ∧
      s.ip = 0 ∧ s.rb = 0#64 ∧ s.in1 = first ∧ s.in2 = second ∧ s.cur = .first ∧
      s.st = .ready ∧ s.refused = false ∧ s.cfg = cfg ∧ (cfg.wf → s.Inv)

/-! ## The host's commands -/

/-- R123 (decision D17): `SetInput` sets `in2` and changes nothing else, in any status. -/
def Obligations.SetInputRule : Prop :=
  ∀ (v : Word) (s : State),
    command (.setInput v) s = .next { s with in2 := v }

/-- R124, R21: a Snapshot holds everything the next Step depends on, under fixed parameters. -/
def Obligations.SnapshotDeterminesStep : Prop :=
  ∀ s t : State, s.snapshot = t.snapshot → s.cfg = t.cfg → step s = step t

/-- R121, R127: what a `Run` on a `Ready` Program returns with, and the status it leaves. -/
def Obligations.RunReturnsAtEvent : Prop :=
  ∀ s t : State, s.st = .ready → RunReturns s t →
    (∃ v, t.event = .output v ∧ t.st = .ready) ∨
    (t.event = .halted ∧ t.st = .halted) ∨
    ∃ r, t.event = .faulted r ∧ t.st = .faulted r

/-- R121: `Run` steps on while the outcome is `Continue`, and returns at the first that is not. -/
def Obligations.RunStepsUntilEvent : Prop :=
  ∀ s u t : State, step s = .next u →
    (u.event = .continued → (RunReturns s t ↔ RunReturns u t)) ∧
    (u.event ≠ .continued → (RunReturns s t ↔ t = u))

/-- R134: a host that keeps its duty never gets the refused mark set, by `Step`, `SetInput` and
`Snapshot`, nor by a `Run` that returns (log entry 8). -/
def Obligations.DutifulHostIsNeverRefused : Prop :=
  (∀ (c : Command) (s t : State), c.allowed s → command c s = .next t →
    t.refused = s.refused ∧ ∀ r, t.event = .refused r → s.event = .refused r) ∧
  ∀ s t : State, s.st = .ready → RunReturns s t →
    t.refused = s.refused ∧ ∀ r, t.event ≠ .refused r

/-- R90, R126: a jump to its own address with a true condition loops forever. -/
def Obligations.SelfJumpNeverReturns : Prop :=
  ∀ s : State, s.st = .ready → Fetchable s 3 → s.mem.get s.ip = 1105#64 →
    s.mem.get (s.ip + 1) ≠ 0#64 → s.ip < 2 ^ 63 →
    s.mem.get (s.ip + 2) = BitVec.ofNat 64 s.ip → RunHangs s

/-! ## The amplifier-network host -/

/-- R129: a round of a trial runs only its active amplifier; every other Program is untouched. -/
def Obligations.RoundLeavesOtherAmplifiers : Prop :=
  ∀ (fuel : Nat) (t u : Trial), t.round fuel = .more u → ∀ j, j ≠ t.active →
    u.amps[j]? = t.amps[j]?

/-- R131: one round whose `Run` returns, by what it returns. -/
def Obligations.TrialRoundRule : Prop :=
  ∀ (fuel : Nat) (t : Trial) (s a : State), t.amps[t.active]? = some s →
    runFor fuel { s with in2 := t.signal } = some a →
    (∀ v, a.event = .output v → t.round fuel = .more
      { amps := t.amps.set t.active a
        signal := v
        active := (t.active + 1) % t.amps.length
        last := if t.active + 1 = t.amps.length then some v else t.last }) ∧
    (a.event = .halted → t.round fuel = .ended { t with amps := t.amps.set t.active a }) ∧
    (∀ r, a.event = .faulted r →
      t.round fuel = .aborted { t with amps := t.amps.set t.active a } r)

/-- R131: a trial of `Ready` amplifiers never issues `Run` to a halted or faulted one, so no `Run` of
it is refused, and every round leaves it so. -/
def Obligations.TrialNeverRefused : Prop :=
  ∀ (fuel : Nat) (t : Trial), TrialReady t →
    t.round fuel ≠ .breach ∧ (∀ u, t.round fuel = .more u → TrialReady u) ∧
    ∀ n, t.loop fuel n ≠ .breach

/-- R131, R132: a trial on its amplifiers begins with the signal 0, amplifier 0 active and no `last`;
where the loop ends, the trial's result is `last`; with none it fails; a fault aborts it. -/
def Obligations.TrialResultRule : Prop :=
  (∀ (cfg : Config) (net : NetConfig) (fuel rounds : Nat) (image : List Word) (π : List Nat)
    (amps : List State), newAmps cfg net.phaseBias image π = some amps →
    trial cfg net fuel rounds image π = (Trial.start amps).loop fuel rounds ∧
    (Trial.start amps).amps = amps ∧ (Trial.start amps).signal = 0#64 ∧
    (Trial.start amps).active = 0 ∧ (Trial.start amps).last = none) ∧
  ∀ (fuel n : Nat) (t u : Trial),
    (t.round fuel = .ended u → ∀ v, u.last = some v → t.loop fuel (n + 1) = .value v) ∧
    (t.round fuel = .ended u → u.last = none → t.loop fuel (n + 1) = .noOutput) ∧
    (∀ r, t.round fuel = .aborted u r → t.loop fuel (n + 1) = .failed r) ∧
    (t.round fuel = .more u → t.loop fuel (n + 1) = u.loop fuel n)

/-- R130: the amplifiers of a trial, one per element of the permutation, where every phase setting is
an int64 (the spec states no word for another, log entry 9). -/
def Obligations.AmplifierConstructionRule : Prop :=
  ∀ (cfg : Config) (bias : Int) (image : List Word) (π : List Nat),
    image.length ≤ cfg.memLimit → (∀ p ∈ π, InInt64 (bias + (p : Int))) →
    ∃ amps, newAmps cfg bias image π = some amps ∧ amps.length = π.length ∧
      ∀ (j p : Nat), π[j]? = some p →
        ∃ w : Word, w.toInt = bias + p ∧ amps[j]? = newProgram cfg image w 0#64

/-- R133 (decision D22): the search has the value `v` exactly when every permutation's trial has a result, each at
most `v`, and `v` is the result of one: a trial without a result fails the search. -/
def Obligations.SearchIsMaximumOverAllPermutations : Prop :=
  ∀ (cfg : Config) (net : NetConfig) (fuel rounds : Nat) (image : List Word) (v : Word),
    search cfg net fuel rounds image = .value v ↔
    (∀ π : List Nat, π.Perm (List.range net.ampCount) →
      ∃ w, ResultIs (trial cfg net fuel rounds image π) w ∧ w.toInt ≤ v.toInt) ∧
    ∃ π : List Nat, π.Perm (List.range net.ampCount) ∧
      ResultIs (trial cfg net fuel rounds image π) v
end

