-- ==== Sys2Proof/Laws/Decode.lean ====
section
/-! SUPPORT. What the parts of the decoder can do: the opcode, one mode digit, the surplus-digit
loop, and the shape of an encoding. -/

namespace Sys2Proof

theorem opOfCode_iff (n : Nat) (op : Op) : opOfCode n = some op ↔ n = op.code := by
  constructor
  · unfold opOfCode
    split <;> intro h <;> cases h <;> rfl
  · rintro rfl
    cases op <;> rfl

theorem decodeOp_ok {w : Word} {op : Op} (h0 : 0 ≤ w.toInt) (hc : w.toNat % 100 = op.code) :
    decodeOp w = .ok op := by
  unfold decodeOp
  rw [if_neg (by omega), (opOfCode_iff _ _).2 hc]

/-- A digit of 0, 1 or 2 is a mode. -/
theorem decodeMode_ok {w : Word} {k : Nat} (h : digit (k + 2) w.toNat ≤ 2) :
    ∃ m, decodeMode w k = .ok m ∧ m.digit = digit (k + 2) w.toNat := by
  unfold decodeMode
  generalize digit (k + 2) w.toNat = d at *
  have hd : d = 0 ∨ d = 1 ∨ d = 2 := by omega
  rcases hd with rfl | rfl | rfl <;> exact ⟨_, rfl, rfl⟩

/-- A digit above 2 is refused by name. -/
theorem decodeMode_error {w : Word} {k : Nat} (h : 2 < digit (k + 2) w.toNat) :
    decodeMode w k = .error (.invalidAddressingMode w k (digit (k + 2) w.toNat)) := by
  unfold decodeMode
  generalize digit (k + 2) w.toNat = d at *
  have hd : modeOfDigit d = none := by
    unfold modeOfDigit
    split <;> first | omega | rfl
  rw [hd]

/-- The surplus loop passes where no digit from position `k` on is above 2. -/
theorem checkSurplus_ok (fuel : Nat) {w : Word} {k : Nat}
    (h : ∀ j, k ≤ j → digit (j + 2) w.toNat ≤ 2) : checkSurplus fuel w k = .ok () := by
  induction fuel generalizing k with
  | zero => rfl
  | succ fuel ih =>
    unfold checkSurplus
    split
    · rfl
    · obtain ⟨m, hm, _⟩ := decodeMode_ok (h k (by omega))
      rw [hm]
      exact ih fun j hj => h j (by omega)

/-- The surplus loop reports the first digit above 2 among those it looks at. -/
theorem checkSurplus_error {fuel b k : Nat} {w : Word} (hkb : k ≤ b) (hfuel : b < k + fuel)
    (hb : 2 < digit (b + 2) w.toNat) (h : ∀ j, k ≤ j → j < b → digit (j + 2) w.toNat ≤ 2) :
    checkSurplus fuel w k = .error (.invalidAddressingMode w b (digit (b + 2) w.toNat)) := by
  induction fuel generalizing k with
  | zero => omega
  | succ fuel ih =>
    have hne : w.toNat / 10 ^ (k + 2) ≠ 0 := by
      intro h0
      have hlt : w.toNat < 10 ^ (k + 2) :=
        ((Nat.div_eq_zero_iff).1 h0).resolve_left (by positivity)
      have hle : 10 ^ (k + 2) ≤ 10 ^ (b + 2) := Nat.pow_le_pow_right (by omega) (by omega)
      have h00 : digit (b + 2) w.toNat = 0 := by
        unfold digit
        rw [Nat.div_eq_of_lt (by omega)]
      omega
    unfold checkSurplus
    rw [if_neg hne]
    by_cases hk : k = b
    · subst hk
      rw [decodeMode_error hb]
    · obtain ⟨m, hm, _⟩ := decodeMode_ok (h k (by omega) (by omega))
      rw [hm]
      exact ih (by omega) (by omega) fun j h1 h2 => h j (by omega) h2

@[simp] theorem encode_length (i : Instr) : (encode i).length = 1 + i.op.paramCount := by
  cases i <;> rfl

@[simp] theorem build_op (d : Decoded) (o : Nat → Word) : (d.build o).op = d.op := by
  unfold Decoded.build
  cases d.op <;> rfl

end Sys2Proof
end

