-- ==== Sys2Proof/Laws/Memory.lean ====
section
/-! SUPPORT. The memory as a function of its address, and its canonical form: reading after a write
and after growth, and that every memory operation keeps `Memory.wf`. -/

namespace Sys2Proof.Machine

theorem cellsGet_erase (cs : List (Nat × Word)) (a b : Nat) :
    cellsGet (cellsErase cs a) b = if b = a then 0#64 else cellsGet cs b := by
  induction cs with
  | nil => simp [cellsErase, cellsGet]
  | cons c cs ih =>
    by_cases hca : c.1 = a <;> by_cases hba : b = a <;> by_cases hcb : c.1 = b <;>
      simp_all [cellsErase, cellsGet]

theorem cellsGet_put (cs : List (Nat × Word)) (a : Nat) (v : Word) (b : Nat)
    (h : cellsGet cs a = 0#64 ∧ ∀ c ∈ cs, c.1 ≠ a) :
    cellsGet (cellsPut cs a v) b = if b = a then v else cellsGet cs b := by
  induction cs with
  | nil => simp [cellsPut, cellsGet, eq_comm]
  | cons c cs ih =>
    have hc : c.1 ≠ a := h.2 c (by simp)
    have ih := ih ⟨by simpa [cellsGet, hc] using h.1, fun d hd => h.2 d (by simp [hd])⟩
    by_cases hlt : a < c.1
    · simp [cellsPut, cellsGet, hlt, eq_comm]
    · by_cases hcb : c.1 = b
      · subst hcb
        simp [cellsPut, cellsGet, hlt, hc]
      · simp [cellsPut, cellsGet, hlt, hcb, ih]

theorem mem_cellsErase {cs : List (Nat × Word)} {a : Nat} {c : Nat × Word}
    (h : c ∈ cellsErase cs a) : c ∈ cs ∧ c.1 ≠ a := by
  induction cs with
  | nil => simp [cellsErase] at h
  | cons d ds ih =>
    by_cases hd : d.1 = a
    · simp only [cellsErase, hd, if_true] at h
      exact ⟨List.mem_cons_of_mem _ (ih h).1, (ih h).2⟩
    · simp only [cellsErase, hd, if_false, List.mem_cons] at h
      rcases h with rfl | h
      · exact ⟨by simp, hd⟩
      · exact ⟨List.mem_cons_of_mem _ (ih h).1, (ih h).2⟩

theorem mem_cellsPut {cs : List (Nat × Word)} {a : Nat} {v : Word} {c : Nat × Word}
    (h : c ∈ cellsPut cs a v) : c = (a, v) ∨ c ∈ cs := by
  induction cs with
  | nil => simpa [cellsPut] using h
  | cons d ds ih =>
    by_cases hd : a < d.1
    · simpa [cellsPut, hd] using h
    · simp only [cellsPut, hd, if_false, List.mem_cons] at h
      rcases h with rfl | h
      · simp
      · rcases ih h with h | h <;> simp [h]

theorem cellsErase_sorted {cs : List (Nat × Word)} (a : Nat)
    (h : cs.Pairwise (fun x y => x.1 < y.1)) :
    (cellsErase cs a).Pairwise (fun x y => x.1 < y.1) := by
  induction cs with
  | nil => simp [cellsErase]
  | cons c cs ih =>
    rw [List.pairwise_cons] at h
    by_cases hc : c.1 = a
    · simpa [cellsErase, hc] using ih h.2
    · simp only [cellsErase, hc, if_false, List.pairwise_cons]
      exact ⟨fun d hd => h.1 d (mem_cellsErase hd).1, ih h.2⟩

theorem cellsPut_sorted {cs : List (Nat × Word)} (a : Nat) (v : Word)
    (h : cs.Pairwise (fun x y => x.1 < y.1)) (ha : ∀ c ∈ cs, c.1 ≠ a) :
    (cellsPut cs a v).Pairwise (fun x y => x.1 < y.1) := by
  induction cs with
  | nil => simp [cellsPut]
  | cons c cs ih =>
    have h' := List.pairwise_cons.1 h
    have hc : c.1 ≠ a := ha c (by simp)
    by_cases hlt : a < c.1
    · simp only [cellsPut, hlt, if_true]
      refine List.pairwise_cons.2 ⟨fun d hd => ?_, h⟩
      rcases List.mem_cons.1 hd with rfl | hd
      · exact hlt
      · exact Nat.lt_trans hlt (h'.1 d hd)
    · simp only [cellsPut, hlt, if_false]
      refine List.pairwise_cons.2 ⟨fun d hd => ?_, ih h'.2 (fun d hd => ha d (by simp [hd]))⟩
      rcases mem_cellsPut hd with rfl | hd
      · show c.1 < a
        omega
      · exact h'.1 d hd

/-! The memory. -/

theorem Memory.get_set (m : Memory) (a : Nat) (v : Word) (b : Nat) :
    (m.set a v).get b = if b = a then v else m.get b := by
  unfold Memory.set Memory.get
  by_cases hv : v = 0#64
  · simp only [hv, if_true]
    exact cellsGet_erase m.cells a b
  · simp only [hv, if_false]
    rw [cellsGet_put _ _ _ _ ⟨by simp [cellsGet_erase], fun c hc => (mem_cellsErase hc).2⟩]
    by_cases hb : b = a <;> simp [hb, cellsGet_erase]

@[simp] theorem Memory.get_set_same (m : Memory) (a : Nat) (v : Word) : (m.set a v).get a = v := by
  simp [Memory.get_set]

theorem Memory.get_set_other (m : Memory) {a b : Nat} (v : Word) (h : b ≠ a) :
    (m.set a v).get b = m.get b := by
  simp [Memory.get_set, h]

@[simp] theorem Memory.cells_grow (m : Memory) (a : Nat) : (m.grow a).cells = m.cells := by
  unfold Memory.grow
  split <;> rfl

@[simp] theorem Memory.get_grow (m : Memory) (a b : Nat) : (m.grow a).get b = m.get b := by
  simp [Memory.get]

@[simp] theorem Memory.len_grow (m : Memory) (a : Nat) : (m.grow a).len = max m.len (a + 1) := by
  unfold Memory.grow
  split
  · show a + 1 = max m.len (a + 1)
    omega
  · omega

@[simp] theorem Memory.len_set (m : Memory) (a : Nat) (v : Word) :
    (m.set a v).len = max m.len (a + 1) :=
  m.len_grow a

/-- A word at or above `len` reads as 0 (10_state.md R21). -/
theorem Memory.get_of_len_le {m : Memory} (h : m.wf) {a : Nat} (ha : m.len ≤ a) : m.get a = 0#64 := by
  have key : ∀ cs : List (Nat × Word), (∀ c ∈ cs, c.1 < m.len) → cellsGet cs a = 0#64 := by
    intro cs hcs
    induction cs with
    | nil => rfl
    | cons c cs ih =>
      have : c.1 ≠ a := by have := hcs c (by simp); omega
      simpa [cellsGet, this] using ih fun d hd => hcs d (by simp [hd])
  exact key m.cells fun c hc => (h.2 c hc).2

/-! Every memory operation keeps the canonical form. -/

theorem Memory.grow_wf {m : Memory} (h : m.wf) (a : Nat) : (m.grow a).wf := by
  refine ⟨by simpa using h.1, fun c hc => ?_⟩
  have := h.2 c (by simpa using hc)
  exact ⟨this.1, by rw [Memory.len_grow]; omega⟩

theorem Memory.set_wf {m : Memory} (h : m.wf) (a : Nat) (v : Word) : (m.set a v).wf := by
  have hlen := m.len_set a v
  by_cases hv : v = 0#64
  · have hcells : (m.set a v).cells = cellsErase m.cells a := by simp [Memory.set, hv]
    refine ⟨by rw [hcells]; exact cellsErase_sorted a h.1, fun c hc => ?_⟩
    rw [hcells] at hc
    have := h.2 c (mem_cellsErase hc).1
    exact ⟨this.1, by omega⟩
  · have hcells : (m.set a v).cells = cellsPut (cellsErase m.cells a) a v := by
      simp [Memory.set, hv]
    refine ⟨by
      rw [hcells]
      exact cellsPut_sorted a v (cellsErase_sorted a h.1) fun c hc => (mem_cellsErase hc).2,
      fun c hc => ?_⟩
    rw [hcells] at hc
    rcases mem_cellsPut hc with rfl | hc
    · exact ⟨hv, by show a < _; omega⟩
    · have := h.2 c (mem_cellsErase hc).1
      exact ⟨this.1, by omega⟩

theorem Memory.place_wf {m : Memory} (h : m.wf) (a : Nat) (ws : List Word) : (m.place a ws).wf := by
  induction ws generalizing m a with
  | nil => exact h
  | cons w ws ih => exact ih (Memory.set_wf h a w) (a + 1)

theorem mem_imageCells {a : Nat} {ws : List Word} {c : Nat × Word} (h : c ∈ imageCells a ws) :
    c.2 ≠ 0#64 ∧ a ≤ c.1 ∧ c.1 < a + ws.length := by
  induction ws generalizing a with
  | nil => simp [imageCells] at h
  | cons w ws ih =>
    rw [List.length_cons]
    by_cases hw : w = 0#64
    · have := ih (by simpa [imageCells, hw] using h)
      exact ⟨this.1, by omega, by omega⟩
    · rcases List.mem_cons.1 (by simpa [imageCells, hw] using h) with rfl | h
      · exact ⟨hw, by simp, by simp⟩
      · have := ih h
        exact ⟨this.1, by omega, by omega⟩

theorem imageCells_sorted (a : Nat) (ws : List Word) :
    (imageCells a ws).Pairwise (fun x y => x.1 < y.1) := by
  induction ws generalizing a with
  | nil => simp [imageCells]
  | cons w ws ih =>
    by_cases hw : w = 0#64
    · simpa [imageCells, hw] using ih (a + 1)
    · simp only [imageCells, hw, if_false, List.pairwise_cons]
      exact ⟨fun c hc => by have := (mem_imageCells hc).2.1; show a < c.1; omega, ih (a + 1)⟩

theorem Memory.ofImage_wf (ws : List Word) : (Memory.ofImage ws).wf :=
  ⟨imageCells_sorted 0 ws, fun c hc => by
    have := mem_imageCells hc
    exact ⟨this.1, by show c.1 < ws.length; omega⟩⟩

theorem cellsGet_imageCells (a : Nat) (ws : List Word) (k : Nat) :
    cellsGet (imageCells a ws) (a + k) = ws.getD k 0#64 := by
  induction ws generalizing a k with
  | nil => simp [imageCells, cellsGet]
  | cons w ws ih =>
    cases k with
    | zero =>
      by_cases hw : w = 0#64
      · have : ∀ cs : List (Nat × Word), (∀ c ∈ cs, a < c.1) → cellsGet cs a = 0#64 := by
          intro cs hcs
          induction cs with
          | nil => rfl
          | cons c cs ih' =>
            have : c.1 ≠ a := by have := hcs c (by simp); omega
            simpa [cellsGet, this] using ih' fun d hd => hcs d (by simp [hd])
        simpa [imageCells, hw] using
          this _ fun c hc => by have := (mem_imageCells hc).2.1; omega
      · simp [imageCells, hw, cellsGet]
    | succ k =>
      have ih := ih (a + 1) k
      rw [show a + (k + 1) = a + 1 + k by omega]
      by_cases hw : w = 0#64
      · simpa [imageCells, hw] using ih
      · have : a ≠ a + 1 + k := by omega
        simpa [imageCells, hw, cellsGet, this] using ih

/-- `M[i] = image[i]`, and 0 beyond the image (10_state.md R21). -/
theorem Memory.get_ofImage (ws : List Word) (a : Nat) : (Memory.ofImage ws).get a = ws.getD a 0#64 := by
  have := cellsGet_imageCells 0 ws a
  rwa [Nat.zero_add] at this

end Sys2Proof.Machine
end

