-- ==== Sys2Proof/Laws/State.lean ====
section
/-! SUPPORT. One lemma per field per named update of the state, true by `rfl`, so that no later
proof unfolds an update. -/

namespace Sys2Proof.Machine.State

variable (s : State)

@[simp] theorem withMem_cfg (m : Memory) : (s.withMem m).cfg = s.cfg := rfl
@[simp] theorem withMem_mem (m : Memory) : (s.withMem m).mem = m := rfl
@[simp] theorem withMem_ip (m : Memory) : (s.withMem m).ip = s.ip := rfl
@[simp] theorem withMem_rb (m : Memory) : (s.withMem m).rb = s.rb := rfl
@[simp] theorem withMem_in1 (m : Memory) : (s.withMem m).in1 = s.in1 := rfl
@[simp] theorem withMem_in2 (m : Memory) : (s.withMem m).in2 = s.in2 := rfl
@[simp] theorem withMem_cur (m : Memory) : (s.withMem m).cur = s.cur := rfl
@[simp] theorem withMem_st (m : Memory) : (s.withMem m).st = s.st := rfl
@[simp] theorem withMem_refused (m : Memory) : (s.withMem m).refused = s.refused := rfl
@[simp] theorem withMem_event (m : Memory) : (s.withMem m).event = s.event := rfl

@[simp] theorem advance_cfg (n : Nat) : (s.advance n).cfg = s.cfg := rfl
@[simp] theorem advance_mem (n : Nat) : (s.advance n).mem = s.mem := rfl
@[simp] theorem advance_ip (n : Nat) : (s.advance n).ip = s.ip + n := rfl
@[simp] theorem advance_rb (n : Nat) : (s.advance n).rb = s.rb := rfl
@[simp] theorem advance_in1 (n : Nat) : (s.advance n).in1 = s.in1 := rfl
@[simp] theorem advance_in2 (n : Nat) : (s.advance n).in2 = s.in2 := rfl
@[simp] theorem advance_cur (n : Nat) : (s.advance n).cur = s.cur := rfl
@[simp] theorem advance_st (n : Nat) : (s.advance n).st = s.st := rfl
@[simp] theorem advance_refused (n : Nat) : (s.advance n).refused = s.refused := rfl
@[simp] theorem advance_event (n : Nat) : (s.advance n).event = .continued := rfl

@[simp] theorem jumpTo_cfg (t : Nat) : (s.jumpTo t).cfg = s.cfg := rfl
@[simp] theorem jumpTo_mem (t : Nat) : (s.jumpTo t).mem = s.mem := rfl
@[simp] theorem jumpTo_ip (t : Nat) : (s.jumpTo t).ip = t := rfl
@[simp] theorem jumpTo_rb (t : Nat) : (s.jumpTo t).rb = s.rb := rfl
@[simp] theorem jumpTo_in1 (t : Nat) : (s.jumpTo t).in1 = s.in1 := rfl
@[simp] theorem jumpTo_in2 (t : Nat) : (s.jumpTo t).in2 = s.in2 := rfl
@[simp] theorem jumpTo_cur (t : Nat) : (s.jumpTo t).cur = s.cur := rfl
@[simp] theorem jumpTo_st (t : Nat) : (s.jumpTo t).st = s.st := rfl
@[simp] theorem jumpTo_refused (t : Nat) : (s.jumpTo t).refused = s.refused := rfl
@[simp] theorem jumpTo_event (t : Nat) : (s.jumpTo t).event = .continued := rfl

@[simp] theorem takeFault_cfg (f : Fault) : (s.takeFault f).cfg = s.cfg := rfl
@[simp] theorem takeFault_mem (f : Fault) : (s.takeFault f).mem = s.mem := rfl
@[simp] theorem takeFault_ip (f : Fault) : (s.takeFault f).ip = s.ip := rfl
@[simp] theorem takeFault_rb (f : Fault) : (s.takeFault f).rb = s.rb := rfl
@[simp] theorem takeFault_in1 (f : Fault) : (s.takeFault f).in1 = s.in1 := rfl
@[simp] theorem takeFault_in2 (f : Fault) : (s.takeFault f).in2 = s.in2 := rfl
@[simp] theorem takeFault_cur (f : Fault) : (s.takeFault f).cur = s.cur := rfl
@[simp] theorem takeFault_st (f : Fault) : (s.takeFault f).st = .faulted ⟨f, s.ip⟩ := rfl
@[simp] theorem takeFault_refused (f : Fault) : (s.takeFault f).refused = s.refused := rfl
@[simp] theorem takeFault_event (f : Fault) : (s.takeFault f).event = .faulted ⟨f, s.ip⟩ := rfl

@[simp] theorem markRefused_cfg (r : Refusal) : (s.markRefused r).cfg = s.cfg := rfl
@[simp] theorem markRefused_mem (r : Refusal) : (s.markRefused r).mem = s.mem := rfl
@[simp] theorem markRefused_ip (r : Refusal) : (s.markRefused r).ip = s.ip := rfl
@[simp] theorem markRefused_rb (r : Refusal) : (s.markRefused r).rb = s.rb := rfl
@[simp] theorem markRefused_in1 (r : Refusal) : (s.markRefused r).in1 = s.in1 := rfl
@[simp] theorem markRefused_in2 (r : Refusal) : (s.markRefused r).in2 = s.in2 := rfl
@[simp] theorem markRefused_cur (r : Refusal) : (s.markRefused r).cur = s.cur := rfl
@[simp] theorem markRefused_st (r : Refusal) : (s.markRefused r).st = s.st := rfl
@[simp] theorem markRefused_refused (r : Refusal) : (s.markRefused r).refused = true := rfl
@[simp] theorem markRefused_event (r : Refusal) : (s.markRefused r).event = .refused r := rfl

@[simp] theorem setInput_cfg (v : Word) : (s.setInput v).cfg = s.cfg := rfl
@[simp] theorem setInput_mem (v : Word) : (s.setInput v).mem = s.mem := rfl
@[simp] theorem setInput_ip (v : Word) : (s.setInput v).ip = s.ip := rfl
@[simp] theorem setInput_rb (v : Word) : (s.setInput v).rb = s.rb := rfl
@[simp] theorem setInput_in1 (v : Word) : (s.setInput v).in1 = s.in1 := rfl
@[simp] theorem setInput_in2 (v : Word) : (s.setInput v).in2 = v := rfl
@[simp] theorem setInput_cur (v : Word) : (s.setInput v).cur = s.cur := rfl
@[simp] theorem setInput_st (v : Word) : (s.setInput v).st = s.st := rfl
@[simp] theorem setInput_refused (v : Word) : (s.setInput v).refused = s.refused := rfl
@[simp] theorem setInput_event (v : Word) : (s.setInput v).event = s.event := rfl

@[simp] theorem consumeInput_cfg : (s.consumeInput).cfg = s.cfg := rfl
@[simp] theorem consumeInput_mem : (s.consumeInput).mem = s.mem := rfl
@[simp] theorem consumeInput_ip : (s.consumeInput).ip = s.ip := rfl
@[simp] theorem consumeInput_rb : (s.consumeInput).rb = s.rb := rfl
@[simp] theorem consumeInput_in1 : (s.consumeInput).in1 = s.in1 := rfl
@[simp] theorem consumeInput_in2 : (s.consumeInput).in2 = s.in2 := rfl
@[simp] theorem consumeInput_cur : (s.consumeInput).cur = .second := rfl
@[simp] theorem consumeInput_st : (s.consumeInput).st = s.st := rfl
@[simp] theorem consumeInput_refused : (s.consumeInput).refused = s.refused := rfl
@[simp] theorem consumeInput_event : (s.consumeInput).event = s.event := rfl

@[simp] theorem emit_cfg (v : Word) : (s.emit v).cfg = s.cfg := rfl
@[simp] theorem emit_mem (v : Word) : (s.emit v).mem = s.mem := rfl
@[simp] theorem emit_ip (v : Word) : (s.emit v).ip = s.ip := rfl
@[simp] theorem emit_rb (v : Word) : (s.emit v).rb = s.rb := rfl
@[simp] theorem emit_in1 (v : Word) : (s.emit v).in1 = s.in1 := rfl
@[simp] theorem emit_in2 (v : Word) : (s.emit v).in2 = s.in2 := rfl
@[simp] theorem emit_cur (v : Word) : (s.emit v).cur = s.cur := rfl
@[simp] theorem emit_st (v : Word) : (s.emit v).st = s.st := rfl
@[simp] theorem emit_refused (v : Word) : (s.emit v).refused = s.refused := rfl
@[simp] theorem emit_event (v : Word) : (s.emit v).event = .output v := rfl

@[simp] theorem halt_cfg : (s.halt).cfg = s.cfg := rfl
@[simp] theorem halt_mem : (s.halt).mem = s.mem := rfl
@[simp] theorem halt_ip : (s.halt).ip = s.ip := rfl
@[simp] theorem halt_rb : (s.halt).rb = s.rb := rfl
@[simp] theorem halt_in1 : (s.halt).in1 = s.in1 := rfl
@[simp] theorem halt_in2 : (s.halt).in2 = s.in2 := rfl
@[simp] theorem halt_cur : (s.halt).cur = s.cur := rfl
@[simp] theorem halt_st : (s.halt).st = .halted := rfl
@[simp] theorem halt_refused : (s.halt).refused = s.refused := rfl
@[simp] theorem halt_event : (s.halt).event = .halted := rfl

@[simp] theorem setRb_cfg (v : Word) : (s.setRb v).cfg = s.cfg := rfl
@[simp] theorem setRb_mem (v : Word) : (s.setRb v).mem = s.mem := rfl
@[simp] theorem setRb_ip (v : Word) : (s.setRb v).ip = s.ip := rfl
@[simp] theorem setRb_rb (v : Word) : (s.setRb v).rb = v := rfl
@[simp] theorem setRb_in1 (v : Word) : (s.setRb v).in1 = s.in1 := rfl
@[simp] theorem setRb_in2 (v : Word) : (s.setRb v).in2 = s.in2 := rfl
@[simp] theorem setRb_cur (v : Word) : (s.setRb v).cur = s.cur := rfl
@[simp] theorem setRb_st (v : Word) : (s.setRb v).st = s.st := rfl
@[simp] theorem setRb_refused (v : Word) : (s.setRb v).refused = s.refused := rfl
@[simp] theorem setRb_event (v : Word) : (s.setRb v).event = s.event := rfl

end Sys2Proof.Machine.State
end

