-- ==== Sys2Proof/Laws/Ops.lean ====
section
/-! SUPPORT. One lemma per shared operation that says everything it can do, in the terms of Safety:
growing accesses, `fit64`, resolving, reading and writing a slot, and the transaction of a Step. -/

namespace Sys2Proof.Machine

/-- The state with its memory grown to hold at least `l` words; what accesses without a write do. -/
def State.growLen (l : Nat) (s : State) : State :=
  s.withMem { s.mem with len := max s.mem.len l }

namespace State

variable (l : Nat) (s : State)

@[simp] theorem growLen_cfg : (s.growLen l).cfg = s.cfg := rfl
@[simp] theorem growLen_ip : (s.growLen l).ip = s.ip := rfl
@[simp] theorem growLen_rb : (s.growLen l).rb = s.rb := rfl
@[simp] theorem growLen_in1 : (s.growLen l).in1 = s.in1 := rfl
@[simp] theorem growLen_in2 : (s.growLen l).in2 = s.in2 := rfl
@[simp] theorem growLen_cur : (s.growLen l).cur = s.cur := rfl
@[simp] theorem growLen_st : (s.growLen l).st = s.st := rfl
@[simp] theorem growLen_refused : (s.growLen l).refused = s.refused := rfl
@[simp] theorem growLen_event : (s.growLen l).event = s.event := rfl
@[simp] theorem growLen_len : (s.growLen l).mem.len = max s.mem.len l := rfl
@[simp] theorem growLen_cells : (s.growLen l).mem.cells = s.mem.cells := rfl
@[simp] theorem growLen_get (a : Nat) : (s.growLen l).mem.get a = s.mem.get a := rfl

@[simp] theorem growLen_growLen (k : Nat) : (s.growLen l).growLen k = s.growLen (max l k) := by
  simp [growLen, withMem, Nat.max_assoc]

@[simp] theorem growLen_zero : s.growLen 0 = s := by
  simp [growLen, withMem]

end State

theorem withMem_grow (s : State) (a : Nat) : s.withMem (s.mem.grow a) = s.growLen (a + 1) := by
  have h : s.mem.grow a = { s.mem with len := max s.mem.len (a + 1) } := by
    have hl := s.mem.len_grow a
    have hc := s.mem.cells_grow a
    generalize s.mem.grow a = m at hl hc
    cases m
    simp_all
  rw [h]
  rfl

/-! Accesses. -/

theorem memRead_ok {a : Nat} {s : State} (h : a < s.cfg.memLimit) :
    memRead a s = .ok (s.mem.get a, s.growLen (a + 1)) := by
  rw [memRead, if_neg (by omega), withMem_grow]

theorem memRead_limit {a : Nat} {s : State} (h : s.cfg.memLimit ≤ a) :
    memRead a s = .error (.memoryExhausted a) := by
  rw [memRead, if_pos h]

theorem memWrite_ok {a : Nat} {s : State} (v : Word) (h : a < s.cfg.memLimit) :
    memWrite a v s = .ok (s.withMem (s.mem.set a v)) := by
  rw [memWrite, if_neg (by omega)]

theorem memWrite_limit {a : Nat} {s : State} (v : Word) (h : s.cfg.memLimit ≤ a) :
    memWrite a v s = .error (.memoryExhausted a) := by
  rw [memWrite, if_pos h]

theorem fetchWords_ok (n : Nat) {a : Nat} {s : State} (h : a + (n + 1) ≤ s.cfg.memLimit) :
    fetchWords a (n + 1) s = .ok (s.growLen (a + (n + 1))) := by
  induction n generalizing a s with
  | zero => simp [fetchWords, memRead_ok (show a < s.cfg.memLimit by omega)]
  | succ n ih =>
    rw [fetchWords, memRead_ok (by omega)]
    show fetchWords (a + 1) (n + 1) (s.growLen (a + 1)) = _
    rw [ih (by simp; omega), State.growLen_growLen]
    congr 2
    omega

theorem fetchWords_limit {n a : Nat} {s : State} (h : s.cfg.memLimit < a + n) (hn : 0 < n) :
    fetchWords a n s = .error (.memoryExhausted (max a s.cfg.memLimit)) := by
  induction n generalizing a s with
  | zero => omega
  | succ n ih =>
    by_cases ha : s.cfg.memLimit ≤ a
    · rw [fetchWords, memRead_limit ha, Nat.max_eq_left ha]
    · rw [fetchWords, memRead_ok (by omega)]
      show fetchWords (a + 1) n (s.growLen (a + 1)) = _
      rw [ih (by simp; omega) (by omega)]
      simp only [State.growLen_cfg]
      congr 2
      omega

/-! `fit64` (00_scope.md R7). -/

theorem fit64_of_in {ov : ArithOverflow} {x : Int} (h : InInt64 x) :
    fit64 ov x = .ok (BitVec.ofInt 64 x) := by
  unfold fit64
  rw [if_pos h]

theorem fit64_fault {x : Int} (h : ¬ InInt64 x) : fit64 .fault x = .error .arithmeticOverflow := by
  unfold fit64
  rw [if_neg h]

theorem fit64_wrap (x : Int) : fit64 .wrap x = .ok (BitVec.ofInt 64 x) := by
  unfold fit64
  split <;> rfl

/-- What `fit64` can do: an int64 result, or the overflow fault. -/
theorem fit64_cases (ov : ArithOverflow) (x : Int) :
    fit64 ov x = .ok (BitVec.ofInt 64 x) ∨
      (ov = .fault ∧ ¬ InInt64 x ∧ fit64 ov x = .error .arithmeticOverflow) := by
  by_cases h : InInt64 x
  · exact .inl (fit64_of_in h)
  · cases ov with
    | fault => exact .inr ⟨rfl, h, fit64_fault h⟩
    | wrap => exact .inl (fit64_wrap x)

theorem toInt_ofInt_of_in {x : Int} (h : InInt64 x) : (BitVec.ofInt 64 x).toInt = x := by
  rw [BitVec.toInt_ofInt]
  exact Int.bmod_eq_of_le (by have := h.1; norm_num; omega) (by have := h.2; norm_num; omega)

theorem inInt64_toInt (w : Word) : InInt64 w.toInt :=
  ⟨by simpa using BitVec.le_toInt w, by simpa using BitVec.toInt_lt (x := w)⟩

theorem fits_iff {s : State} {x : Int} :
    Fits s x ↔ ∃ r, fit64 s.cfg.arithOverflow x = .ok r := by
  rcases fit64_cases s.cfg.arithOverflow x with h | ⟨hf, hx, h⟩
  · refine ⟨fun _ => ⟨_, h⟩, fun _ => ?_⟩
    by_cases hx : InInt64 x
    · exact .inl hx
    · cases hov : s.cfg.arithOverflow with
      | fault => rw [hov, fit64_fault hx] at h; cases h
      | wrap => exact .inr hov
  · simp [Fits, hf, hx, fit64_fault hx]

/-! Slots. -/

theorem addrOf_ok {x : Word} {a : Nat} (h : x.toInt = a) : addrOf x = .ok a := by
  have h0 : ¬ x.toInt < 0 := by omega
  rw [addrOf, if_neg h0]
  have : x.toNat = a := by
    rw [BitVec.toInt_eq_toNat_cond] at h
    split at h <;> omega
  rw [this]

theorem addrOf_negative {x : Word} (h : x.toInt < 0) : addrOf x = .error (.negativeAddress x) := by
  rw [addrOf, if_pos h]

/-- The address a Position or Relative slot resolves to, as one expression. -/
def slotAddr (p : Param) (s : State) : Except Fault Nat :=
  match p.mode with
  | .position => addrOf p.word
  | .immediate => .error (.immediateDestination 0)
  | .relative => relativeAddr p.word s

theorem slotAddr_of_value {s : State} {p : Param} {x : Word} (h : SlotValue s p x) :
    slotAddr p s = addrOf x := by
  cases h with
  | position hm => simp [slotAddr, hm]
  | relative _ hm hx => simp [slotAddr, hm, relativeAddr, hx]

theorem slotAddr_of_resolves {s : State} {p : Param} {a : Nat} (h : Resolves s p a) :
    slotAddr p s = .ok a := by
  obtain ⟨x, hx, ha⟩ := h
  rw [slotAddr_of_value hx, addrOf_ok ha]

/-- Every Position or Relative slot overflows, is negative, or names an address. -/
theorem slot_cases (s : State) (p : Param) (h : p.mode ≠ .immediate) :
    (∃ f, SlotFaults s p f ∧ slotAddr p s = .error f) ∨ ∃ a, Resolves s p a := by
  have sign : ∀ x, SlotValue s p x →
      (∃ f, SlotFaults s p f ∧ slotAddr p s = .error f) ∨ ∃ a, Resolves s p a := by
    intro x hx
    by_cases h0 : x.toInt < 0
    · exact .inl ⟨_, .negative x hx h0, by rw [slotAddr_of_value hx, addrOf_negative h0]⟩
    · exact .inr ⟨x.toInt.toNat, x, hx, by omega⟩
  cases hm : p.mode with
  | position => exact sign _ (.position hm)
  | immediate => exact absurd hm h
  | relative =>
    rcases fit64_cases s.cfg.arithOverflow (s.rb.toInt + p.word.toInt) with hx | ⟨hf, hn, hx⟩
    · exact sign _ (.relative _ hm hx)
    · exact .inl ⟨_, .overflow hm hf hn, by simp [slotAddr, hm, relativeAddr, hx]⟩

theorem slotAddr_growLen (p : Param) (l : Nat) (s : State) :
    slotAddr p (s.growLen l) = slotAddr p s := rfl

theorem readParam_eq_readAt {p : Param} {s : State} (h : p.mode ≠ .immediate) :
    readParam p s = readAt (slotAddr p s) s := by
  cases hm : p.mode <;> simp_all [readParam, slotAddr]

theorem destAddr_eq_slotAddr {p : Param} {s : State} (k : Nat) (h : p.mode ≠ .immediate) :
    destAddr k p s = slotAddr p s := by
  cases hm : p.mode <;> simp_all [destAddr, slotAddr]

theorem SlotValue.not_immediate {s : State} {p : Param} {x : Word} (h : SlotValue s p x) :
    p.mode ≠ .immediate := by
  cases h <;> simp_all

theorem Resolves.not_immediate {s : State} {p : Param} {a : Nat} (h : Resolves s p a) :
    p.mode ≠ .immediate := h.elim fun _ hx => hx.1.not_immediate

theorem SlotFaults.not_immediate {s : State} {p : Param} {f : Fault} (h : SlotFaults s p f) :
    p.mode ≠ .immediate := by
  cases h with
  | overflow hm => simp [hm]
  | negative x hx => exact hx.not_immediate
  | exhausted a ha => exact ha.not_immediate

/-- `ReadParam` where the slot reads, in a memory that earlier accesses have grown. -/
theorem readParam_reads {s : State} {p : Param} {v : Word} {l : Nat} (k : Nat)
    (h : SourceReads s p v l) : readParam p (s.growLen k) = .ok (v, s.growLen (max k l)) := by
  cases h with
  | immediate hm => simp [readParam, hm]
  | memory a ha hlim =>
    rw [readParam_eq_readAt ha.not_immediate, slotAddr_growLen, slotAddr_of_resolves ha, readAt,
      memRead_ok (by simpa using hlim)]
    simp

/-- `ReadParam` where the slot faults. -/
theorem readParam_faults {s : State} {p : Param} {f : Fault} (k : Nat) (h : SlotFaults s p f) :
    readParam p (s.growLen k) = .error f := by
  rw [readParam_eq_readAt h.not_immediate, slotAddr_growLen]
  cases h with
  | overflow hm hf hn => simp [slotAddr, hm, relativeAddr, hf, fit64_fault hn, readAt]
  | negative x hx h0 => simp [slotAddr_of_value hx, addrOf_negative h0, readAt]
  | exhausted a ha hlim =>
    rw [slotAddr_of_resolves ha, readAt, memRead_limit (by simpa using hlim)]

/-- A destination slot's write where it names a writable address. -/
theorem writeDest_ok {s : State} {p : Param} {a : Nat} (k n : Nat) (v : Word)
    (h : Resolves s p a) (hlim : a < s.cfg.memLimit) :
    writeDest k p v (s.growLen n) = .ok (s.withMem ((s.growLen n).mem.set a v)) := by
  simp only [writeDest, destAddr_eq_slotAddr k h.not_immediate, slotAddr_growLen,
    slotAddr_of_resolves h]
  exact memWrite_ok (s := s.growLen n) v hlim

/-- A destination slot's write where it faults. -/
theorem writeDest_faults {s : State} {p : Param} {f : Fault} {k : Nat} (n : Nat) (v : Word)
    (h : DestFaults s k p f) : writeDest k p v (s.growLen n) = .error f := by
  cases h with
  | immediate hm => simp [writeDest, destAddr, hm, bind, Except.bind]
  | slot f h =>
    simp only [writeDest, destAddr_eq_slotAddr k h.not_immediate, slotAddr_growLen]
    cases h with
    | overflow hm hf hn =>
      simp [slotAddr, hm, relativeAddr, hf, fit64_fault hn, bind, Except.bind]
    | negative x hx h0 => simp [slotAddr_of_value hx, addrOf_negative h0, bind, Except.bind]
    | exhausted a ha hlim =>
      rw [slotAddr_of_resolves ha]
      exact memWrite_limit (s := s.growLen n) v hlim

/-- Every source slot reads a value or raises a fault. -/
theorem source_cases (s : State) (p : Param) :
    (∃ v l, SourceReads s p v l) ∨ ∃ f, SlotFaults s p f := by
  by_cases hm : p.mode = .immediate
  · exact .inl ⟨_, _, .immediate hm⟩
  · rcases slot_cases s p hm with ⟨f, hf, _⟩ | ⟨a, ha⟩
    · exact .inr ⟨f, hf⟩
    · by_cases hlim : a < s.cfg.memLimit
      · exact .inl ⟨_, _, .memory a ha hlim⟩
      · exact .inr ⟨_, .exhausted a ha (by omega)⟩

/-- Every destination slot names a writable address or raises a fault. -/
theorem dest_cases (s : State) (k : Nat) (p : Param) : DestOk s p ∨ ∃ f, DestFaults s k p f := by
  by_cases hm : p.mode = .immediate
  · exact .inr ⟨_, .immediate hm⟩
  · rcases slot_cases s p hm with ⟨f, hf, _⟩ | ⟨a, ha⟩
    · exact .inr ⟨f, .slot f hf⟩
    · by_cases hlim : a < s.cfg.memLimit
      · exact .inl ⟨a, ha, hlim⟩
      · exact .inr ⟨_, .slot _ (.exhausted a ha (by omega))⟩

/-! The transaction (60_exceptions.md R111, R120). -/

theorem transact_limit {n : Nat} {s : State} (body : State → Except Fault State)
    (h : s.cfg.memLimit < s.ip + n) (hn : 0 < n) :
    transact n body s = .next (s.takeFault (.memoryExhausted (max s.ip s.cfg.memLimit))) := by
  simp [transact, fetchWords_limit h hn, Except.bind]

theorem transact_ok {n : Nat} {s t : State} {body : State → Except Fault State}
    (h : Fetchable s (n + 1)) (hb : body (s.growLen (s.ip + (n + 1))) = .ok t) :
    transact (n + 1) body s = .next t := by
  simp [transact, fetchWords_ok n h, Except.bind, hb]

theorem transact_error {n : Nat} {s : State} {f : Fault} {body : State → Except Fault State}
    (h : Fetchable s (n + 1)) (hb : body (s.growLen (s.ip + (n + 1))) = .error f) :
    transact (n + 1) body s = .next (s.takeFault f) := by
  simp [transact, fetchWords_ok n h, Except.bind, hb]

/-- What a transaction can do: take a fault from the state before it, or commit its body's state. -/
theorem transact_cases (n : Nat) (body : State → Except Fault State) (s : State) :
    (∃ f, transact (n + 1) body s = .next (s.takeFault f)) ∨
      ∃ t, Fetchable s (n + 1) ∧ body (s.growLen (s.ip + (n + 1))) = .ok t ∧
        transact (n + 1) body s = .next t := by
  by_cases h : Fetchable s (n + 1)
  · cases hb : body (s.growLen (s.ip + (n + 1))) with
    | ok t => exact .inr ⟨t, h, rfl, transact_ok h hb⟩
    | error f => exact .inl ⟨f, transact_error h hb⟩
  · exact .inl ⟨_, transact_limit body (by unfold Fetchable at h; omega) (by omega)⟩

end Sys2Proof.Machine
end

