-- ==== Sys2Proof/Laws/Exec.lean ====
section
/-! SUPPORT. What the shared instruction bodies and the start of a Step can do: take a fault, or
complete, and how. -/

namespace Sys2Proof.Machine

/-- The three-slot body where every line completes. -/
theorem computeStore_ok {alu : Config → Word → Word → Except Fault Word} {s : State}
    {a b d : Param} {x y r : Word} {l m e : Nat} (hf : Fetchable s 4) (ha : SourceReads s a x l)
    (hb : SourceReads s b y m) (hr : alu s.cfg x y = .ok r) (hd : Resolves s d e)
    (he : e < s.cfg.memLimit) :
    computeStore alu a b d s =
      .next ((s.withMem ((s.growLen (max (max (s.ip + 4) l) m)).mem.set e r)).advance 4) := by
  apply transact_ok hf
  simp [readParam_reads _ ha, readParam_reads _ hb, hr, writeDest_ok 2 _ r hd he, bind,
    Except.bind, pure, Except.pure]

/-- The three-slot body takes a fault, or completes as `computeStore_ok` says. -/
theorem computeStore_cases (alu : Config → Word → Word → Except Fault Word) (a b d : Param)
    (s : State) :
    (∃ f, computeStore alu a b d s = .next (s.takeFault f)) ∨
      ∃ x l y m r e, Fetchable s 4 ∧ SourceReads s a x l ∧ SourceReads s b y m ∧
        alu s.cfg x y = .ok r ∧ Resolves s d e ∧ e < s.cfg.memLimit := by
  by_cases hf : Fetchable s 4
  swap
  · exact .inl ⟨_, transact_limit _ (by unfold Fetchable at hf; omega) (by omega)⟩
  rcases source_cases s a with ⟨x, l, hx⟩ | ⟨g, hg⟩
  swap
  · refine .inl ⟨g, transact_error hf ?_⟩
    simp [readParam_faults _ hg, bind, Except.bind]
  rcases source_cases s b with ⟨y, m, hy⟩ | ⟨g, hg⟩
  swap
  · refine .inl ⟨g, transact_error hf ?_⟩
    simp [readParam_reads _ hx, readParam_faults _ hg, bind, Except.bind]
  cases hr : alu s.cfg x y with
  | error g =>
    refine .inl ⟨g, transact_error hf ?_⟩
    simp [readParam_reads _ hx, readParam_reads _ hy, hr, bind, Except.bind]
  | ok r =>
    rcases dest_cases s 2 d with ⟨e, he, hl⟩ | ⟨g, hg⟩
    · exact .inr ⟨x, l, y, m, r, e, hf, hx, hy, hr, he, hl⟩
    · refine .inl ⟨g, transact_error hf ?_⟩
      simp [readParam_reads _ hx, readParam_reads _ hy, hr, writeDest_faults _ r hg, bind,
        Except.bind]

/-- The jump body takes a fault, falls through, or jumps to its non-negative target. -/
theorem jumpWhen_cases (taken : Word → Bool) (c t : Param) (s : State) :
    (∃ f, jumpWhen taken c t s = .next (s.takeFault f)) ∨
      (∃ x l, Fetchable s 3 ∧ SourceReads s c x l ∧ taken x = false ∧
        jumpWhen taken c t s = .next ((s.growLen (max (s.ip + 3) l)).advance 3)) ∨
      ∃ x l y m, Fetchable s 3 ∧ SourceReads s c x l ∧ taken x = true ∧ SourceReads s t y m ∧
        0 ≤ y.toInt ∧
        jumpWhen taken c t s =
          .next ((s.growLen (max (max (s.ip + 3) l) m)).jumpTo y.toNat) := by
  by_cases hf : Fetchable s 3
  swap
  · exact .inl ⟨_, transact_limit _ (by unfold Fetchable at hf; omega) (by omega)⟩
  rcases source_cases s c with ⟨x, l, hx⟩ | ⟨g, hg⟩
  swap
  · refine .inl ⟨g, transact_error hf ?_⟩
    simp [readParam_faults _ hg, bind, Except.bind]
  cases ht : taken x with
  | false =>
    refine .inr (.inl ⟨x, l, hf, hx, ht, transact_ok hf ?_⟩)
    simp [readParam_reads _ hx, ht, bind, Except.bind, pure, Except.pure]
  | true =>
    rcases source_cases s t with ⟨y, m, hy⟩ | ⟨g, hg⟩
    swap
    · refine .inl ⟨g, transact_error hf ?_⟩
      simp [readParam_reads _ hx, ht, readParam_faults _ hg, bind, Except.bind]
    by_cases h0 : y.toInt < 0
    · refine .inl ⟨.negativeAddress y, transact_error hf ?_⟩
      simp [readParam_reads _ hx, ht, readParam_reads _ hy, addrOf_negative h0, bind, Except.bind]
    · have ha : addrOf y = .ok y.toNat := by rw [addrOf, if_neg h0]
      refine .inr (.inr ⟨x, l, y, m, hf, hx, ht, hy, by omega, transact_ok hf ?_⟩)
      simp [readParam_reads _ hx, ht, readParam_reads _ hy, ha, bind, Except.bind, pure,
        Except.pure]

/-- What the start of a Step can answer: an instruction or a fault of a `Ready` Program, a refusal of
a terminal one. -/
theorem beginStep_cases (s : State) :
    (s.st = .ready ∧ ∃ i, fetchInstr s = .ok i ∧ beginStep s = .ok i) ∨
      (s.st = .ready ∧ ∃ f, fetchInstr s = .error f ∧ beginStep s = .error (s.takeFault f)) ∨
      (s.st ≠ .ready ∧ ∃ r, beginStep s = .error (s.markRefused r)) := by
  cases hs : s.st with
  | ready =>
    cases hf : fetchInstr s with
    | ok i => exact .inl ⟨rfl, i, rfl, by simp [beginStep, hs, hf]⟩
    | error f => exact .inr (.inl ⟨rfl, f, rfl, by simp [beginStep, hs, hf]⟩)
  | halted => exact .inr (.inr ⟨by simp, _, by simp [beginStep, hs]; rfl⟩)
  | faulted r => exact .inr (.inr ⟨by simp, _, by simp [beginStep, hs]; rfl⟩)

/-- What fetching can answer, by the word at `ip`. -/
theorem fetchInstr_cases (s : State) :
    (s.cfg.memLimit ≤ s.ip ∧ fetchInstr s = .error (.memoryExhausted s.ip)) ∨
      (s.ip < s.cfg.memLimit ∧
        ((∃ e, decodeWord s.cfg.surplusDigits (s.mem.get s.ip) = .error e ∧
            fetchInstr s = .error (Fault.ofDecode e)) ∨
          ∃ d, decodeWord s.cfg.surplusDigits (s.mem.get s.ip) = .ok d ∧
            fetchInstr s = .ok (d.build fun k => s.mem.get (s.ip + 1 + k)))) := by
  by_cases h : s.cfg.memLimit ≤ s.ip
  · exact .inl ⟨h, by simp [fetchInstr, memRead_limit h]⟩
  · refine .inr ⟨by omega, ?_⟩
    have hr := memRead_ok (s := s) (a := s.ip) (by omega)
    cases hd : decodeWord s.cfg.surplusDigits (s.mem.get s.ip) with
    | error e => exact .inl ⟨e, rfl, by simp [fetchInstr, hr, hd]⟩
    | ok d => exact .inr ⟨d, rfl, by simp [fetchInstr, hr, hd]⟩

end Sys2Proof.Machine
end

