-- ==== Sys2Proof/Laws/Network.lean ====
section
/-! SUPPORT. A trial before its first round (60_exceptions.md R131), and the permutations the search
goes through (R133). -/

namespace Sys2Proof.Machine

@[simp] theorem Trial.start_amps (l : List State) : (Trial.start l).amps = l := rfl
@[simp] theorem Trial.start_signal (l : List State) : (Trial.start l).signal = 0#64 := rfl
@[simp] theorem Trial.start_active (l : List State) : (Trial.start l).active = 0 := rfl
@[simp] theorem Trial.start_last (l : List State) : (Trial.start l).last = none := rfl

theorem perm_of_mem_insertions {x : Nat} {l p : List Nat} (h : p ∈ insertions x l) :
    p.Perm (x :: l) := by
  induction l generalizing p with
  | nil => simp_all [insertions]
  | cons y ys ih =>
    simp only [insertions, List.mem_cons, List.mem_map] at h
    rcases h with rfl | ⟨z, hz, rfl⟩
    · exact .refl _
    · exact ((ih hz).cons y).trans (List.Perm.swap _ _ _)

theorem mem_insertions_split (x : Nat) (a b : List Nat) : a ++ x :: b ∈ insertions x (a ++ b) := by
  induction a with
  | nil => cases b <;> simp [insertions]
  | cons y ys ih => exact List.mem_cons_of_mem _ (List.mem_map_of_mem ih)

/-- `permutations k` lists exactly the permutations of `0 .. k-1`. -/
theorem mem_permutations_iff {k : Nat} {p : List Nat} :
    p ∈ permutations k ↔ p.Perm (List.range k) := by
  induction k generalizing p with
  | zero => simp [permutations]
  | succ k ih =>
    simp only [permutations, List.mem_flatMap]
    constructor
    · rintro ⟨l, hl, hp⟩
      rw [List.range_succ]
      exact (perm_of_mem_insertions hp).trans
        (((ih.1 hl).cons k).trans (List.perm_append_singleton k _).symm)
    · intro hp
      obtain ⟨a, b, rfl⟩ := List.append_of_mem (hp.mem_iff.2 (by simp) : k ∈ p)
      rw [List.range_succ] at hp
      exact ⟨a ++ b, ih.2 ((List.perm_middle.symm.trans hp).trans
        (List.perm_append_singleton k _)).cons_inv, mem_insertions_split k a b⟩

end Sys2Proof.Machine
end

