-- ==== Sys2Proof/Laws/PerInstr.lean ====
section
/-! SUPPORT. Facts of every instruction as syntax, one lemma per constructor. Family `EncodeForm`:
the words of an instruction are one instruction word and one operand word per slot, in slot order
(30_encoding.md R50, R52, R62). -/

namespace Sys2Proof.Laws

/-- The encoding's length, its operand words and its slot count. -/
def EncodeForm.Statement (i : Instr) : Prop :=
  (encode i).length = i.length ∧ (encode i).tail = i.params.map Param.word ∧
    i.params.length = i.op.paramCount

theorem EncodeForm.add (a b d : Param) : EncodeForm.Statement (.add a b d) := ⟨rfl, rfl, rfl⟩

theorem EncodeForm.mul (a b d : Param) : EncodeForm.Statement (.mul a b d) := ⟨rfl, rfl, rfl⟩

theorem EncodeForm.inp (d : Param) : EncodeForm.Statement (.inp d) := ⟨rfl, rfl, rfl⟩

theorem EncodeForm.out (a : Param) : EncodeForm.Statement (.out a) := ⟨rfl, rfl, rfl⟩

theorem EncodeForm.jt (c t : Param) : EncodeForm.Statement (.jt c t) := ⟨rfl, rfl, rfl⟩

theorem EncodeForm.jf (c t : Param) : EncodeForm.Statement (.jf c t) := ⟨rfl, rfl, rfl⟩

theorem EncodeForm.lt (a b d : Param) : EncodeForm.Statement (.lt a b d) := ⟨rfl, rfl, rfl⟩

theorem EncodeForm.eq (a b d : Param) : EncodeForm.Statement (.eq a b d) := ⟨rfl, rfl, rfl⟩

theorem EncodeForm.arb (v : Param) : EncodeForm.Statement (.arb v) := ⟨rfl, rfl, rfl⟩

theorem EncodeForm.hlt : EncodeForm.Statement (.hlt) := ⟨rfl, rfl, rfl⟩

end Sys2Proof.Laws
end

