-- ==== Sys2Proof/Tests/Slice0.lean ====
section
/-! SUPPORT. The model's own tests, with expected results from spec/ (95_test_vectors.md and the
examples of the rules), and a witness for the hypotheses of every statement that has some. -/

namespace Sys2Proof.Tests

open Sys2Proof Sys2Proof.Machine

/-! ## Helpers -/

/-- Words from integers. -/
def ws (l : List Int) : List Word := l.map (BitVec.ofInt 64)

/-- The core of the vectors with `MEM_LIMIT = n`. -/
def cfgLim (n : Nat) : Config := ⟨n, .fault, .ignore⟩

/-- `New(image, 7, 9)` under `cfg`. -/
def boot (cfg : Config) (image : List Int) : State :=
  (newProgram cfg (ws image) 7#64 9#64).getD State.reset

/-- The state after one Step; every Step completes. -/
def after (s : State) : State :=
  match step s with
  | .next t => t
  | .fault _ => State.reset
  | .refused _ => State.reset

/-- The fault kind recorded in the status, if any. -/
def faultOf (s : State) : Option Fault :=
  match s.st with
  | .faulted r => some r.fault
  | .ready => none
  | .halted => none

def pos (a : Int) : Param := ⟨.position, BitVec.ofInt 64 a⟩
def imm (v : Int) : Param := ⟨.immediate, BitVec.ofInt 64 v⟩
def rel (d : Int) : Param := ⟨.relative, BitVec.ofInt 64 d⟩

/-! ## WellFormed: an ill-formed term for each check (an Immediate destination) -/

theorem test_wellFormed_refuses_immediate_destinations :
    (Instr.add (pos 1) (pos 2) (imm 3)).wellFormed = false ∧
    (Instr.mul (pos 1) (pos 2) (imm 3)).wellFormed = false ∧
    (Instr.lt (pos 1) (pos 2) (imm 3)).wellFormed = false ∧
    (Instr.eq (pos 1) (pos 2) (imm 3)).wellFormed = false ∧
    (Instr.inp (imm 3)).wellFormed = false := by decide

theorem test_wellFormed_accepts_legal_modes :
    (Instr.add (imm 1) (rel 2) (pos 3)).wellFormed = true ∧
    (Instr.inp (rel 3)).wellFormed = true ∧ (Instr.out (imm 3)).wellFormed = true := by decide

/-! ## Decoding: words written out digit by digit from 30_encoding.md R51, R53, R59, R64 -/

/-- `ADD [9], #3, [rb+2]` encodes as `21001, 9, 3, 2` (30_encoding.md R64). -/
theorem test_decode_add :
    decode .validate (ws [21001, 9, 3, 2, 99]) = .ok (.add (pos 9) (imm 3) (rel 2), ws [99]) := by
  decide

/-- `1102`: units 02 is MUL, hundreds 1, thousands 1, ten-thousands missing. -/
theorem test_decode_mul :
    decode .ignore (ws [1102, -3, 4, 5]) = .ok (.mul (imm (-3)) (imm 4) (pos 5), []) := by decide

theorem test_decode_in : decode .ignore (ws [203, 10]) = .ok (.inp (rel 10), []) := by decide

/-- `1104`: the thousands digit is surplus for OUT (30_encoding.md R58). -/
theorem test_decode_out : decode .validate (ws [1104, -1]) = .ok (.out (imm (-1)), []) := by decide

theorem test_decode_jt : decode .ignore (ws [1105, 1, 7]) = .ok (.jt (imm 1) (imm 7), []) := by
  decide

theorem test_decode_jf : decode .ignore (ws [2106, 0, 4]) = .ok (.jf (imm 0) (rel 4), []) := by
  decide

theorem test_decode_lt :
    decode .ignore (ws [7, 1, 2, 3]) = .ok (.lt (pos 1) (pos 2) (pos 3), []) := by decide

theorem test_decode_eq :
    decode .ignore (ws [1008, 100, 16, 101]) = .ok (.eq (pos 100) (imm 16) (pos 101), []) := by
  decide

theorem test_decode_arb : decode .ignore (ws [109, -5]) = .ok (.arb (imm (-5)), []) := by decide

/-- 95_test_vectors.md section 2: `399` halts under Ignore and is refused under Validate. -/
theorem test_decode_hlt :
    decode .ignore (ws [399]) = .ok (.hlt, []) ∧
    decode .validate (ws [399]) = .error (.invalidAddressingMode 399#64 0 3) := by decide

/-- 95_test_vectors.md section 2, the refused words. -/
theorem test_decode_refuses :
    decodeWord .ignore 0#64 = .error (.invalidOpcode 0#64) ∧
    decodeWord .ignore 98#64 = .error (.invalidOpcode 98#64) ∧
    decodeWord .ignore 301#64 = .error (.invalidAddressingMode 301#64 0 3) ∧
    decodeWord .ignore 30001#64 = .error (.invalidAddressingMode 30001#64 2 3) ∧
    decodeWord .validate 300001#64 = .error (.invalidAddressingMode 300001#64 3 3) := by decide

/-- The opcode table's match value of a row, as a word with Position slots. -/
theorem test_decodeTableWord_arb : decodeTableWord 8 9 = some (.arb (pos 0)) := by decide

/-- The quine's first lines (95_test_vectors.md V-S1) in the notation of 30_encoding.md R64. -/
theorem test_assemble :
    assemble [.label "top", .instr .arb [.imm (.lit 1)], .jmp (.imm (.label "top")), .nop] =
      some (ws [109, 1, 1105, 1, 0, 1105, 0, 0]) := by decide

/-- The example of 30_encoding.md R64, and V-P2's line 19 (95_test_vectors.md). -/
theorem test_assembleText :
    assembleText "ADD [9], #3, [rb+2]".toList = some (ws [21001, 9, 3, 2]) ∧
    assembleText "OUT [rb-1]".toList = some (ws [204, -1]) := by decide

/-- A label is the address of the next word; a `.word` line; a pseudo-instruction (R64, R65). -/
theorem test_assembleText_labels :
    assembleText "top: NOP\n JMP #top\nval: .word -7, val".toList =
      some (ws [1105, 0, 0, 1105, 1, 0, -7, 6]) := by decide

/-! ## Instructions: one Step each (95_test_vectors.md section 3) -/

/-- V-A3: the old value is read twice. -/
theorem test_add_doubles : (after (boot (cfgLim 100) [1, 5, 5, 5, 99, 7])).mem.get 5 = 14#64 := by
  decide

/-- V-A8: the growth from reading `M[10]` is discarded. -/
theorem test_add_fault_discards_growth :
    let t := after (boot (cfgLim 100) [1, 10, 0, -1])
    t.mem.len = 4 ∧ faultOf t = some (.negativeAddress (BitVec.ofInt 64 (-1))) := by decide

/-- V-M3. -/
theorem test_mul_overflow :
    faultOf (after (boot (cfgLim 100) [1102, -9223372036854775808, -1, 0])) =
      some .arithmeticOverflow := by decide

/-- V-M5. -/
theorem test_mul_wraps :
    (after (boot ⟨100, .wrap, .ignore⟩ [1102, 9223372036854775807, 2, 0])).mem.get 0 =
      BitVec.ofInt 64 (-2) := by decide

/-- V-L4: the comparison is signed. -/
theorem test_lt_signed :
    (after (boot (cfgLim 100) [1107, -9223372036854775808, 9223372036854775807, 0, 99])).mem.get 0 =
      1#64 := by decide

/-- V-Q2. -/
theorem test_eq_signed : (after (boot (cfgLim 100) [1108, -1, 1, 0, 99])).mem.get 0 = 0#64 := by
  decide

/-- V-I2. -/
theorem test_in_first :
    let t := after (boot (cfgLim 100) [3, 3, 99, 0])
    t.mem.get 3 = 7#64 ∧ t.cur = .second ∧ t.ip = 2 := by decide

/-- V-I3: the first input is not consumed. -/
theorem test_in_immediate_faults :
    let t := after (boot (cfgLim 100) [103, 5, 99])
    faultOf t = some (.immediateDestination 0) ∧ t.cur = .first := by decide

/-- V-O1: OUT reads through its mode. -/
theorem test_out_position :
    let t := after (boot (cfgLim 100) [4, 3, 99, 42])
    t.event = .output 42#64 ∧ t.ip = 2 ∧ t.mem.len = 4 := by decide

/-- V-O4. -/
theorem test_out_limit :
    faultOf (after (boot (cfgLim 10) [4, 10, 99])) = some (.memoryExhausted 10) := by decide

/-- V-J3: a jump not taken never reads slot 1. -/
theorem test_jt_not_taken :
    let t := after (boot (cfgLim 100) [5, 4, -1, 99, 0])
    t.ip = 3 ∧ t.st = .ready := by decide

/-- V-J5. -/
theorem test_jt_negative_target :
    faultOf (after (boot (cfgLim 100) [1105, 1, -3])) =
      some (.negativeAddress (BitVec.ofInt 64 (-3))) := by decide

/-- V-J8. -/
theorem test_jf_taken : (after (boot (cfgLim 100) [1106, 0, 9])).ip = 9 := by decide

/-- V-J9: -1 is not zero. -/
theorem test_jf_not_taken : (after (boot (cfgLim 100) [1106, -1, 9])).ip = 3 := by decide

/-- V-B3, its second Step from the state the first leaves: the old `rb` resolves the slot. -/
theorem test_arb_relative :
    (after { boot (cfgLim 100) [109, 3, 209, -1, 99] with ip := 2, rb := 3 }).rb = 212#64 := by
  decide

/-- V-B5, its second Step. -/
theorem test_arb_overflow :
    faultOf (after { boot (cfgLim 100) [109, 9223372036854775807, 109, 1, 99] with
      ip := 2, rb := 9223372036854775807#64 }) = some .arithmeticOverflow := by decide

/-- V-H1. -/
theorem test_hlt :
    let s := boot (cfgLim 100) [99, 5]
    after s = { s with st := .halted, event := .halted } := by decide

/-- V-S6: a further Step is refused and changes only the mark. -/
theorem test_step_after_halt :
    let s := { boot (cfgLim 100) [99, 5] with st := .halted }
    after s = { s with refused := true, event := .refused .runAfterHalt } := by decide

/-- V-H4: the empty image. -/
theorem test_reset_first_step :
    faultOf (after State.reset) = some (.invalidOpcode 0#64) ∧ (after State.reset).mem.len = 0 := by
  decide

/-- A word placed at reset is what the next Step runs. -/
theorem test_withFetchWord :
    (after (State.reset.withFetchWord 128 (109 + 5 * 2 ^ 64))).rb = 5#64 := by decide

/-- 70_reset_and_hazards.md R145: an ADD may overwrite its own instruction word. -/
theorem test_self_overwrite :
    let t := after (boot (cfgLim 100) [1101, 1, 1, 0, 99])
    t.mem.get 0 = 2#64 ∧ t.ip = 4 := by decide

/-- 60_exceptions.md R133: 5! permutations (90_conflicts.md C7). -/
theorem test_permutations : (permutations 3).length = 6 := by decide

/-! ## Witnesses: states and operands that meet the hypotheses of the statements -/

/-- A small `Ready` state: MEM_LIMIT 8, nothing listed. -/
def small : State := { State.reset with cfg := cfgLim 8 }

theorem resolves_pos7 : Resolves small (pos 7) 7 := ⟨_, .position rfl, by decide⟩

theorem reads_pos7 : SourceReads small (pos 7) 0#64 8 := .memory 7 resolves_pos7 (by decide)

theorem reads_imm (s : State) (v : Int) : SourceReads s (imm v) (BitVec.ofInt 64 v) 0 :=
  .immediate rfl

/-- Each way a slot faults, at its boundary: -1, the limit itself, one past the greatest int64. -/
theorem witness_slot_clauses :
    SlotFaults small (pos (-1)) (.negativeAddress (BitVec.ofInt 64 (-1))) ∧
    SlotFaults small (pos 8) (.memoryExhausted 8) ∧
    SlotFaults { small with rb := 9223372036854775807#64 } (rel 1) .arithmeticOverflow ∧
    DestFaults small 2 (imm 0) (.immediateDestination 2) ∧
    SourceReads small (pos 7) 0#64 8 ∧ SourceReads small (imm 3) 3#64 0 ∧
    (¬ Fetchable { small with ip := 5 } 4 ∧ Fetchable { small with ip := 4 } 4) :=
  ⟨.negative _ (.position rfl) (by decide), .exhausted 8 ⟨_, .position rfl, by decide⟩ (by decide),
    .overflow rfl rfl (by decide), .immediate rfl, reads_pos7, .immediate rfl, by decide, by decide⟩

/-- The last clauses of `AddRule` and `MulRule`: everything readable, the result fits; and overflow. -/
theorem witness_AddRule_MulRule :
    Fetchable small 4 ∧ SourceReads small (imm 2) 2#64 0 ∧ SourceReads small (pos 7) 0#64 8 ∧
    fit64 small.cfg.arithOverflow ((2#64).toInt + (0#64).toInt) = .ok 2#64 ∧
    fit64 small.cfg.arithOverflow ((2#64).toInt * (0#64).toInt) = .ok 0#64 ∧
    Resolves small (pos 7) 7 ∧ 7 < small.cfg.memLimit ∧
    small.cfg.arithOverflow = .fault ∧
    ¬ InInt64 ((9223372036854775807#64).toInt + (1#64).toInt) ∧
    ¬ InInt64 ((BitVec.ofInt 64 (-9223372036854775808)).toInt * (BitVec.ofInt 64 (-1)).toInt) :=
  ⟨by decide, .immediate rfl, reads_pos7, by decide, by decide, resolves_pos7, by decide, rfl,
    by decide, by decide⟩

/-- `LtRule`, `EqRule`: everything readable and writable, with either result. -/
theorem witness_LtRule_EqRule :
    Fetchable small 4 ∧ SourceReads small (imm (-1)) (BitVec.ofInt 64 (-1)) 0 ∧
    SourceReads small (pos 7) 0#64 8 ∧ (BitVec.ofInt 64 (-1)).toInt < (0#64).toInt ∧
    (BitVec.ofInt 64 (-1)) ≠ 0#64 ∧ Resolves small (pos 7) 7 ∧ 7 < small.cfg.memLimit :=
  ⟨by decide, .immediate rfl, reads_pos7, by decide, by decide, resolves_pos7, by decide⟩

/-- `InRule`: the destination at the last address, at either cursor; and a faulting one. -/
theorem witness_InRule :
    Fetchable small 2 ∧ Resolves small (pos 7) 7 ∧ 7 < small.cfg.memLimit ∧ small.cur = .first ∧
    Resolves { small with cur := .second } (pos 7) 7 ∧
    DestFaults small 0 (imm 0) (.immediateDestination 0) ∧ ¬ Fetchable { small with ip := 7 } 2 :=
  ⟨by decide, resolves_pos7, by decide, rfl, ⟨_, .position rfl, by decide⟩, .immediate rfl,
    by decide⟩

/-- `OutRule`, `ArbRule`: readable, faulting, and ARB's sum inside and outside int64. -/
theorem witness_OutRule_ArbRule :
    Fetchable small 2 ∧ SourceReads small (pos 7) 0#64 8 ∧
    SlotFaults small (pos 8) (.memoryExhausted 8) ∧
    fit64 small.cfg.arithOverflow (small.rb.toInt + (0#64).toInt) = .ok 0#64 ∧
    fit64 .fault ((9223372036854775807#64).toInt + (1#64).toInt) = .error .arithmeticOverflow :=
  ⟨by decide, reads_pos7, .exhausted 8 ⟨_, .position rfl, by decide⟩ (by decide), by decide,
    by decide⟩

/-- `JtRule`, `JfRule`: both conditions; a taken target at 0, at -1, and one that faults. -/
theorem witness_JtRule_JfRule :
    Fetchable small 3 ∧ SourceReads small (imm 1) 1#64 0 ∧ (1#64 : Word) ≠ 0#64 ∧
    SourceReads small (pos 7) 0#64 8 ∧ 0 ≤ (0#64 : Word).toInt ∧
    (BitVec.ofInt 64 (-1)).toInt < 0 ∧
    SlotFaults small (pos (-1)) (.negativeAddress (BitVec.ofInt 64 (-1))) ∧
    ¬ Fetchable { small with ip := 6 } 3 :=
  ⟨by decide, .immediate rfl, by decide, reads_pos7, by decide, by decide,
    .negative _ (.position rfl) (by decide), by decide⟩

/-- `HltRule`: below `len`, at `len`, and at the limit. -/
theorem witness_HltRule :
    (boot (cfgLim 8) [99]).ip < (boot (cfgLim 8) [99]).mem.len ∧ small.ip < small.cfg.memLimit ∧
    ¬ small.ip < small.mem.len ∧
    ({ small with ip := 8 } : State).cfg.memLimit ≤ ({ small with ip := 8 } : State).ip := by decide

/-- `EveryInstructionCompletes`: every constructor is executable somewhere. -/
theorem witness_EveryInstructionCompletes :
    Executable (.add (imm 1) (imm 2) (pos 7)) small ∧
    Executable (.mul (imm 1) (imm 2) (pos 7)) small ∧
    Executable (.inp (pos 7)) small ∧ Executable (.out (pos 7)) small ∧
    Executable (.jt (imm 1) (imm 0)) small ∧ Executable (.jf (imm 1) (imm (-1))) small ∧
    Executable (.lt (imm 1) (imm 2) (pos 7)) small ∧
    Executable (.eq (imm 1) (imm 2) (pos 7)) small ∧ Executable (.arb (pos 7)) small ∧
    Executable .hlt small :=
  have d : DestOk small (pos 7) := ⟨7, resolves_pos7, by decide⟩
  have r (v : Int) : SourceOk small (imm v) := ⟨_, _, reads_imm small v⟩
  ⟨⟨by decide, ⟨_, _, _, _, reads_imm _ 1, reads_imm _ 2, .inl (by decide)⟩, d⟩,
    ⟨by decide, ⟨_, _, _, _, reads_imm _ 1, reads_imm _ 2, .inl (by decide)⟩, d⟩,
    ⟨by decide, d⟩, ⟨by decide, ⟨_, _, reads_pos7⟩⟩,
    ⟨by decide, _, _, reads_imm _ 1, fun _ => ⟨_, _, reads_imm _ 0, by decide⟩⟩,
    ⟨by decide, _, _, reads_imm _ 1, fun h => absurd h (by decide)⟩,
    ⟨by decide, r 1, r 2, d⟩, ⟨by decide, r 1, r 2, d⟩,
    ⟨by decide, _, _, reads_pos7, .inl (by decide)⟩, ⟨by decide, trivial⟩⟩

/-- `NotExecutableTakesFault`: the operand words do not fit below the limit. -/
theorem witness_NotExecutableTakesFault : ¬ Executable .hlt { small with ip := 8 } :=
  fun h => absurd h.1 (by decide)

theorem witness_ImmediateDestinationNeverCompletes :
    (Instr.inp (imm 0)).wellFormed = false := by decide

/-- `PseudoInstructionsRule`: NOP's fetch, MOV's operands, JMP's target at 0. -/
theorem witness_PseudoInstructionsRule :
    Fetchable small 3 ∧ Fetchable small 4 ∧ SourceReads small (imm 5) 5#64 0 ∧
    Resolves small (pos 7) 7 ∧ 7 < small.cfg.memLimit ∧ SourceReads small (pos 7) 0#64 8 ∧
    0 ≤ (0#64 : Word).toInt :=
  ⟨by decide, by decide, .immediate rfl, resolves_pos7, by decide, reads_pos7, by decide⟩

/-- `AssemblyLineRule`: a label, a literal and a Relative operand; one operand of a pseudo line. -/
theorem witness_AssemblyLineRule :
    [AsmOperand.pos (.label "x"), .imm (.lit 3#64), .rel (.lit 2#64)].mapM
      (AsmOperand.resolve [("x", 9)]) =
      some (Instr.add (pos 9) (imm 3) (rel 2)).params ∧
    (AsmOperand.pos (.label "x")).resolve [("x", 9)] = some (pos 9) := by decide

/-- `DecoderRule`: a negative word, an opcode outside the ten, a bad slot digit, a bad surplus digit,
and a word with no bad digit. -/
theorem witness_DecoderRule :
    (BitVec.ofInt 64 (-1)).toInt < 0 ∧ (∀ op : Op, (98#64).toNat % 100 ≠ op.code) ∧
    (0 ≤ (30001#64).toInt ∧ (30001#64).toNat % 100 = Op.add.code ∧ Checked .ignore .add 2 ∧
      2 < digit (2 + 2) (30001#64).toNat ∧
      ∀ j, j < 2 → Checked .ignore .add j → digit (j + 2) (30001#64).toNat ≤ 2) ∧
    (0 ≤ (399#64).toInt ∧ (399#64).toNat % 100 = Op.hlt.code ∧ Checked .validate .hlt 0 ∧
      2 < digit (0 + 2) (399#64).toNat ∧
      ∀ j, j < 0 → Checked .validate .hlt j → digit (j + 2) (399#64).toNat ≤ 2) ∧
    (0 ≤ (21001#64).toInt ∧ (21001#64).toNat % 100 = Op.add.code ∧
      ∀ k, Checked .ignore .add k → digit (k + 2) (21001#64).toNat ≤ 2) := by
  refine ⟨by decide, by intro op; cases op <;> decide,
    ⟨by decide, by decide, .inl (by decide), by decide, fun j hj _ => ?_⟩,
    ⟨by decide, by decide, .inr rfl, by decide, fun j hj _ => absurd hj (by omega)⟩,
    ⟨by decide, by decide, fun k hk => ?_⟩⟩
  · have h : j = 0 ∨ j = 1 := by omega
    rcases h with rfl | rfl <;> decide
  · have h3 : k < 3 := hk.resolve_right (by decide)
    have h : k = 0 ∨ k = 1 ∨ k = 2 := by omega
    rcases h with rfl | rfl | rfl <;> decide

/-- `SurplusSettingsAgree`: 99 has no surplus digit. -/
theorem witness_SurplusSettingsAgree :
    ∀ op : Op, (99#64).toNat % 100 = op.code →
      ∀ k, op.paramCount ≤ k → digit (k + 2) (99#64).toNat ≤ 2 := by
  intro op _ k _
  have h : (10 : Nat) ^ 2 ≤ 10 ^ (k + 2) := Nat.pow_le_pow_right (by omega) (by omega)
  have h0 : (99#64).toNat / 10 ^ (k + 2) = 0 := Nat.div_eq_of_lt (by
    show 99 < _
    omega)
  unfold digit
  omega

/-- `DecodeTakesOpcodeAndOperandWords`, `ParameterCountRule`. -/
theorem witness_DecodeTakesOpcodeAndOperandWords :
    decode .ignore (ws [109, -5, 99]) = .ok (.arb (imm (-5)), ws [99]) := by decide

/-- `FitSixtyFourRule`: both boundaries, and one past each, under both settings. -/
theorem witness_FitSixtyFourRule :
    InInt64 (-9223372036854775808) ∧ InInt64 9223372036854775807 ∧
    ¬ InInt64 9223372036854775808 ∧ ¬ InInt64 (-9223372036854775809) := by decide

/-- `MemReadRule`, `MemWriteRule`: below `len`, at `len`, the last address, the limit. -/
theorem witness_MemReadRule_MemWriteRule :
    (boot (cfgLim 8) [5]).mem.wf ∧ 0 < (boot (cfgLim 8) [5]).mem.len ∧
    (boot (cfgLim 8) [5]).mem.len ≤ 1 ∧ 7 < (cfgLim 8).memLimit ∧ (cfgLim 8).memLimit ≤ 8 := by
  decide

/-- `ReadParamRule`, `DestAddrRule`: -1 and 0 as operand and as Relative sum; a sum that overflows. -/
theorem witness_ReadParamRule_DestAddrRule :
    (BitVec.ofInt 64 (-1)).toInt < 0 ∧ 0 ≤ (0#64 : Word).toInt ∧
    fit64 small.cfg.arithOverflow (small.rb.toInt + (BitVec.ofInt 64 (-1)).toInt) =
      .ok (BitVec.ofInt 64 (-1)) ∧
    fit64 small.cfg.arithOverflow (small.rb.toInt + (0#64).toInt) = .ok 0#64 ∧
    fit64 .fault ((9223372036854775807#64).toInt + (1#64).toInt) = .error .arithmeticOverflow := by
  decide

/-- The statements whose hypothesis is `exec i s = .next t`: a completing IN, which moves the cursor,
and a form without a destination slot. -/
theorem witness_exec_statements :
    (∃ t, exec (.inp (pos 7)) small = .next t ∧ t.cur ≠ small.cur ∧ t.event = .continued) ∧
    (∃ t, exec (.out (imm 3)) small = .next t ∧ (Instr.out (imm 3)).dest = none) ∧
    (∀ v, Instr.inp (pos 7) ≠ .arb v) ∧ (Instr.inp (pos 7)).dest = some (pos 7) ∧
    ¬ Resolves small (pos 7) 6 :=
  ⟨⟨_, rfl, by decide, rfl⟩, ⟨_, rfl, rfl⟩, (by intro v h; cases h), rfl, by
    rintro ⟨x, hx, h⟩
    cases hx with
    | position _ => exact absurd h (by decide)
    | relative x hm _ => exact absurd hm (by decide)⟩

/-- The statements whose hypothesis is `step s = .next t`: from a `Ready` state that faults, halts or
goes on, from a terminal state, and with the cursor at `Second`. -/
theorem witness_step_statements :
    (∃ t, step small = .next t ∧ small.st = .ready ∧
      t.st = .faulted ⟨.invalidOpcode 0#64, 0⟩) ∧
    (∃ t, step (boot (cfgLim 8) [99]) = .next t ∧ t.st = .halted) ∧
    (∃ t, step { boot (cfgLim 8) [104, 3] with cur := .second } = .next t ∧ t.st = .ready) ∧
    ∃ t, step { small with st := .halted } = .next t ∧ t.refused = true :=
  ⟨⟨_, rfl, rfl, by decide⟩, ⟨_, rfl, by decide⟩, ⟨_, rfl, by decide⟩, ⟨_, rfl, by decide⟩⟩

/-- `StepRunsDecodedInstruction`, `StepRunsEncodedInstruction`. -/
theorem witness_StepRunsDecodedInstruction :
    let s := boot (cfgLim 8) [104, 3]
    s.st = .ready ∧ s.ip < s.cfg.memLimit ∧
    decodeWord s.cfg.surplusDigits (s.mem.get s.ip) =
      .ok ⟨.out, .immediate, .position, .position⟩ ∧
    ∀ k, k < (encode (.out (imm 3))).length →
      s.mem.get (s.ip + k) = (encode (.out (imm 3))).getD k 0#64 := by
  decide

/-- `FetchAndDecodeFaults`: at the limit, and below it with a word that does not decode. -/
theorem witness_FetchAndDecodeFaults :
    small.st = .ready ∧ ({ small with ip := 8 } : State).cfg.memLimit ≤ 8 ∧
    small.ip < small.cfg.memLimit ∧
    decodeWord small.cfg.surplusDigits (small.mem.get small.ip) = .error (.invalidOpcode 0#64) := by
  decide

/-- `StepKeepsInvariant`: the invariant holds of a state that steps on. -/
theorem witness_StepKeepsInvariant : (boot (cfgLim 8) [104, 3]).Inv ∧
    ∃ t, step (boot (cfgLim 8) [104, 3]) = .next t :=
  ⟨⟨by decide, by decide, by decide, by decide, (fun _ h => nomatch h), (fun _ h => nomatch h),
    by decide⟩, ⟨_, rfl⟩⟩

/-- `NewRule`: an image of exactly `MEM_LIMIT` words, and parameters in range. -/
theorem witness_NewRule : (ws [99]).length ≤ (cfgLim 1).memLimit ∧ (cfgLim 1).wf := by decide

/-- `TerminalStepIsRefused`. -/
theorem witness_TerminalStepIsRefused :
    ({ small with st := .halted } : State).st = .halted ∧
    ({ small with st := .faulted ⟨.arithmeticOverflow, 0⟩ } : State).st =
      .faulted ⟨.arithmeticOverflow, 0⟩ := by decide

/-- `SnapshotDeterminesStep`: two states that differ in `event` only. -/
theorem witness_SnapshotDeterminesStep :
    small.snapshot = ({ small with event := .halted } : State).snapshot ∧
    small.cfg = ({ small with event := .halted } : State).cfg ∧
    small ≠ { small with event := .halted } := by decide

/-- `RunReturnsAtEvent`, `RunStepsUntilEvent`, `DutifulHostIsNeverRefused`: a Run that goes on once and then returns. -/
theorem witness_run_statements :
    (boot (cfgLim 8) [109, 1, 99]).st = .ready ∧
    (∃ u, step (boot (cfgLim 8) [109, 1, 99]) = .next u ∧ u.event = .continued) ∧
    (∃ u, step (boot (cfgLim 8) [99]) = .next u ∧ u.event ≠ .continued) ∧
    ∃ t, RunReturns (boot (cfgLim 8) [109, 1, 99]) t :=
  ⟨rfl, ⟨_, rfl, by decide⟩, ⟨_, rfl, by decide⟩, ⟨_, 2, rfl⟩⟩

/-- `DutifulHostIsNeverRefused`; for its `Run` see `witness_run_statements`. -/
theorem witness_DutifulHostIsNeverRefused :
    Command.step.allowed small ∧ (Command.setInput 5#64).allowed small ∧
    ∃ t, command .step small = .next t :=
  ⟨rfl, trivial, ⟨_, rfl⟩⟩

/-- `SelfJumpNeverReturns`: `1105, 1, 0` at 0. -/
theorem witness_SelfJumpNeverReturns :
    let s := boot (cfgLim 8) [1105, 1, 0]
    s.st = .ready ∧ Fetchable s 3 ∧ s.mem.get s.ip = 1105#64 ∧ s.mem.get (s.ip + 1) ≠ 0#64 ∧
    s.ip < 2 ^ 63 ∧ s.mem.get (s.ip + 2) = BitVec.ofNat 64 s.ip := by decide

/-- A trial of two amplifiers, each with the program `amp`. -/
def twoAmps (amp : List Int) : Trial := Trial.start [boot (cfgLim 8) amp, boot (cfgLim 8) amp]

/-- The network statements: a round that passes an output on, one that halts, one that faults. -/
theorem witness_network_statements :
    TrialReady (twoAmps [104, 3]) ∧
    (∃ u, (twoAmps [104, 3]).round 1 = .more u ∧ 1 ≠ (twoAmps [104, 3]).active) ∧
    (∃ u, (twoAmps [99]).round 1 = .ended u ∧ u.last = none) ∧
    (∃ u r, (twoAmps [0]).round 1 = .aborted u r) ∧
    ∃ u v, ({ twoAmps [99] with last := some 4#64 } : Trial).round 1 = .ended u ∧ u.last = some v :=
  ⟨⟨by decide, by decide⟩, ⟨_, rfl, by decide⟩, ⟨_, rfl, rfl⟩, ⟨_, _, rfl⟩, ⟨_, _, rfl, rfl⟩⟩

/-- `TrialResultRule`: the amplifiers of a trial. -/
theorem witness_TrialResultRule :
    ∃ amps, newAmps (cfgLim 8) 5 (ws [99]) [1, 0] = some amps ∧ amps.length = 2 :=
  ⟨_, rfl, rfl⟩

/-- `TrialRoundRule`: the active amplifier's Run returns, in each of its three ways. -/
theorem witness_TrialRoundRule :
    (twoAmps [104, 3]).amps[(twoAmps [104, 3]).active]? = some (boot (cfgLim 8) [104, 3]) ∧
    (∃ a v, runFor 1 { boot (cfgLim 8) [104, 3] with in2 := 0#64 } = some a ∧
      a.event = .output v) ∧
    (∃ a, runFor 1 { boot (cfgLim 8) [99] with in2 := 0#64 } = some a ∧ a.event = .halted) ∧
    ∃ a r, runFor 1 { boot (cfgLim 8) [0] with in2 := 0#64 } = some a ∧ a.event = .faulted r :=
  ⟨rfl, ⟨_, _, rfl, rfl⟩, ⟨_, rfl, rfl⟩, ⟨_, _, rfl, rfl⟩⟩

/-- `AmplifierConstructionRule`: one phase at the greatest int64. -/
theorem witness_AmplifierConstructionRule :
    (ws [99]).length ≤ (cfgLim 8).memLimit ∧
    ∀ p ∈ [0, 1], InInt64 ((9223372036854775806 : Int) + ((p : Nat) : Int)) := by decide

/-- `SearchIsMaximumOverAllPermutations`: one amplifier that outputs 3 and halts. -/
theorem witness_SearchIsMaximumOverAllPermutations :
    search (cfgLim 8) ⟨0, 1⟩ 1 2 (ws [104, 3, 99]) = .value 3#64 := by decide

end Sys2Proof.Tests
end

/-! PROOF. `fit64` as congruence modulo 2^64 (00_scope.md R7), and the invariant of a Program kept
by every Step. The invariant rests on two facts about the lines of an instruction: no line raises
`UnknownInputSlot` (10_state.md R16), and each leaves a sound working copy of the state
(60_exceptions.md R111); a Step then takes a known fault or commits such a copy. -/

namespace Sys2Proof.Machine

/-! `fit64` (00_scope.md R7). -/

/-- The words are the residues modulo 2^64: a word is congruent to `x` exactly when it is the word
`x` wraps to. -/
theorem congruent_iff_eq_ofInt {x : Int} {z : Word} :
    (∃ k : Int, x = z.toInt + k * 2 ^ 64) ↔ z = BitVec.ofInt 64 x := by
  constructor
  · rintro ⟨k, rfl⟩
    apply BitVec.eq_of_toInt_eq
    rw [BitVec.toInt_ofInt]
    exact ((Int.add_mul_bmod_self_right z.toInt k (2 ^ 64)).trans (BitVec.toInt_bmod_cancel z)).symm
  · rintro rfl
    refine ⟨Int.bdiv x (2 ^ 64), ?_⟩
    rw [BitVec.toInt_ofInt]
    exact (Int.bmod_add_bdiv' x (2 ^ 64)).symm

/-- Settles O7, by cases on the range of `x` and on the setting. -/
theorem fitSixtyFourRule : Obligations.FitSixtyFourRule := by
  intro ov x
  refine ⟨fun hin => ⟨_, fit64_of_in hin, toInt_ofInt_of_in hin⟩, ?_, ?_⟩
  · rintro hout rfl
    exact fit64_fault hout
  · rintro - rfl
    exact ⟨_, fit64_wrap x, congruent_iff_eq_ofInt.2 rfl, fun _ => congruent_iff_eq_ofInt.1⟩

/-! Lines that raise only known faults. -/

/-- The line gives a result that meets `P`, or raises a fault other than `UnknownInputSlot`. -/
def Ends {α : Type} (P : α → Prop) : Except Fault α → Prop
  | .ok a => P a
  | .error f => f ≠ .unknownInputSlot

@[simp] theorem ends_ok {α : Type} {P : α → Prop} {a : α} : Ends P (.ok a) ↔ P a := .rfl

@[simp] theorem ends_error {α : Type} {P : α → Prop} {f : Fault} :
    Ends P (.error f) ↔ f ≠ .unknownInputSlot := .rfl

/-- The rule of sequencing: what follows needs to be shown for the results of the first line only. -/
theorem Ends.bind {α β : Type} {P : α → Prop} {Q : β → Prop} {x : Except Fault α}
    {k : α → Except Fault β} (hx : Ends P x) (hk : ∀ a, P a → Ends Q (k a)) : Ends Q (x >>= k) :=
  match x with
  | .ok a => hk a hx
  | .error _ => hx

theorem SlotFaults.ne_unknownInputSlot {s : State} {p : Param} {f : Fault} (h : SlotFaults s p f) :
    f ≠ .unknownInputSlot := by
  cases h <;> nofun

theorem DestFaults.ne_unknownInputSlot {s : State} {k : Nat} {p : Param} {f : Fault}
    (h : DestFaults s k p f) : f ≠ .unknownInputSlot := by
  cases h with
  | immediate => nofun
  | slot _ h => exact h.ne_unknownInputSlot

theorem fit64_ends (ov : ArithOverflow) (x : Int) : Ends (fun _ => True) (fit64 ov x) := by
  rcases fit64_cases ov x with h | ⟨-, -, h⟩ <;> simp [h]

/-- A word used as an address is below 2^63 (20_memory.md R38). -/
theorem addrOf_ends (a : Word) : Ends (fun n => n < 2 ^ 63) (addrOf a) := by
  by_cases h : a.toInt < 0
  · simp [addrOf_negative h]
  · have hin := inInt64_toInt a
    rw [addrOf_ok (a := a.toInt.toNat) (by omega), ends_ok]
    omega

theorem fetchInstr_ends (s : State) : Ends (fun _ => True) (fetchInstr s) := by
  rcases fetchInstr_cases s with ⟨-, h⟩ | ⟨-, ⟨e, -, h⟩ | ⟨d, -, h⟩⟩
  · simp [h]
  · cases e <;> simp [h, Fault.ofDecode]
  · simp [h]

/-! The working copy of a transaction (60_exceptions.md R111). -/

/-- `t` is a working copy of `s`: the parameters, `ip`, `st` and the refused mark are those of `s`,
and memory stays canonical and within `MEM_LIMIT`. -/
structure WorkingCopy (s t : State) : Prop where
  cfg_eq : t.cfg = s.cfg
  ip_eq : t.ip = s.ip
  st_eq : t.st = s.st
  refused_eq : t.refused = s.refused
  mem_wf : s.mem.wf → t.mem.wf
  len_le : s.mem.len ≤ s.cfg.memLimit → t.mem.len ≤ s.cfg.memLimit

namespace WorkingCopy

variable {s t u : State}

theorem trans (h : WorkingCopy s t) (k : WorkingCopy t u) : WorkingCopy s u where
  cfg_eq := k.cfg_eq.trans h.cfg_eq
  ip_eq := k.ip_eq.trans h.ip_eq
  st_eq := k.st_eq.trans h.st_eq
  refused_eq := k.refused_eq.trans h.refused_eq
  mem_wf := k.mem_wf ∘ h.mem_wf
  len_le hs := h.cfg_eq ▸ k.len_le (h.cfg_eq ▸ h.len_le hs)

theorem growLen {l : Nat} (hl : l ≤ s.cfg.memLimit) : WorkingCopy s (s.growLen l) where
  cfg_eq := rfl
  ip_eq := rfl
  st_eq := rfl
  refused_eq := rfl
  mem_wf h := ⟨h.1, fun c hc => ⟨(h.2 c hc).1, lt_max_of_lt_left (h.2 c hc).2⟩⟩
  len_le hs := max_le hs hl

theorem set {a : Nat} (v : Word) (ha : a < s.cfg.memLimit) :
    WorkingCopy s (s.withMem (s.mem.set a v)) where
  cfg_eq := rfl
  ip_eq := rfl
  st_eq := rfl
  refused_eq := rfl
  mem_wf h := Memory.set_wf h a v
  len_le hs := by
    rw [State.withMem_mem, Memory.len_set]
    exact max_le hs ha

theorem setRb (v : Word) (h : WorkingCopy s t) : WorkingCopy s (t.setRb v) :=
  { h with }

theorem consumeInput (h : WorkingCopy s t) : WorkingCopy s t.consumeInput :=
  { h with }

end WorkingCopy

theorem SourceReads.le_memLimit {s : State} {p : Param} {v : Word} {l : Nat}
    (h : SourceReads s p v l) : l ≤ s.cfg.memLimit := by
  cases h with
  | immediate => exact Nat.zero_le _
  | memory a _ hlim => exact hlim

theorem readParam_ends {s t : State} (p : Param) (h : WorkingCopy s t) :
    Ends (fun r => WorkingCopy s r.2) (readParam p t) := by
  rcases source_cases t p with ⟨v, l, hr⟩ | ⟨f, hf⟩
  · have hread : readParam p t = .ok (v, t.growLen l) := by simpa using readParam_reads 0 hr
    simpa [hread] using h.trans (.growLen hr.le_memLimit)
  · have hfault : readParam p t = .error f := by simpa using readParam_faults 0 hf
    simpa [hfault] using hf.ne_unknownInputSlot

theorem writeDest_ends {s t : State} (k : Nat) (p : Param) (v : Word) (h : WorkingCopy s t) :
    Ends (WorkingCopy s) (writeDest k p v t) := by
  rcases dest_cases t k p with ⟨a, ha, hlim⟩ | ⟨f, hf⟩
  · have hwrite : writeDest k p v t = .ok (t.withMem (t.mem.set a v)) := by
      simpa using writeDest_ok k 0 v ha hlim
    simpa [hwrite] using h.trans (.set v hlim)
  · have hfault : writeDest k p v t = .error f := by simpa using writeDest_faults 0 v hf
    simpa [hfault] using hf.ne_unknownInputSlot

/-! What an instruction commits. -/

/-- `t` is a state that an instruction run from `s` may commit: `ip` has moved within its bound and
the status has stayed or become `Halted`. -/
structure Commits (s t : State) : Prop where
  cfg_eq : t.cfg = s.cfg
  ip_le : s.cfg.wf → t.ip ≤ 2 ^ 63
  st_cases : t.st = s.st ∨ t.st = .halted
  refused_eq : t.refused = s.refused
  mem_wf : s.mem.wf → t.mem.wf
  len_le : s.mem.len ≤ s.cfg.memLimit → t.mem.len ≤ s.cfg.memLimit

namespace WorkingCopy

variable {s t : State}

theorem advance {n : Nat} (h : WorkingCopy s t) (hn : Fetchable s n) :
    Commits s (t.advance n) where
  cfg_eq := h.cfg_eq
  ip_le hc := by
    rw [State.advance_ip, h.ip_eq]
    exact hn.trans hc.2
  st_cases := .inl h.st_eq
  refused_eq := h.refused_eq
  mem_wf := h.mem_wf
  len_le := h.len_le

theorem jumpTo {n : Nat} (h : WorkingCopy s t) (hn : n < 2 ^ 63) : Commits s (t.jumpTo n) where
  cfg_eq := h.cfg_eq
  ip_le _ := hn.le
  st_cases := .inl h.st_eq
  refused_eq := h.refused_eq
  mem_wf := h.mem_wf
  len_le := h.len_le

theorem halt (h : WorkingCopy s t) (hf : Fetchable s 1) : Commits s t.halt where
  cfg_eq := h.cfg_eq
  ip_le hc := by
    rw [State.halt_ip, h.ip_eq]
    exact (Nat.le_succ _).trans (hf.trans hc.2)
  st_cases := .inr rfl
  refused_eq := h.refused_eq
  mem_wf := h.mem_wf
  len_le := h.len_le

end WorkingCopy

theorem Commits.emit {s t : State} (v : Word) (h : Commits s t) : Commits s (t.emit v) :=
  { h with }

/-- How an instruction run from `s` ends: it takes a known fault, or it commits. -/
inductive Transacts (s : State) : Host.Outcome State Fault Refusal → Prop where
  | fault (f : Fault) : f ≠ .unknownInputSlot → Transacts s (.next (s.takeFault f))
  | commit (t : State) : Commits s t → Transacts s (.next t)

/-- A transaction ends so when its lines do, run on the working copy that the fetches leave. -/
theorem transact_transacts {n : Nat} {body : State → Except Fault State} {s : State}
    (hbody : Fetchable s (n + 1) → ∀ t, WorkingCopy s t → Ends (Commits s) (body t)) :
    Transacts s (transact (n + 1) body s) := by
  by_cases hf : Fetchable s (n + 1)
  · have hends := hbody hf _ (.growLen hf)
    cases hb : body (s.growLen (s.ip + (n + 1))) with
    | ok t =>
      rw [transact_ok hf hb]
      rw [hb] at hends
      exact .commit t hends
    | error f =>
      rw [transact_error hf hb]
      rw [hb] at hends
      exact .fault f hends
  · rw [transact_limit body (by omega) (by omega)]
    exact .fault _ nofun

theorem computeStore_transacts {alu : Config → Word → Word → Except Fault Word} {s : State}
    (halu : ∀ x y, Ends (fun _ => True) (alu s.cfg x y)) (a b d : Param) :
    Transacts s (computeStore alu a b d s) :=
  transact_transacts fun hf _ ht =>
    (readParam_ends a ht).bind fun x hx =>
    (readParam_ends b hx).bind fun y hy =>
    (halu x.1 y.1).bind fun r _ =>
    (writeDest_ends 2 d r hy).bind fun _ hu => hu.advance hf

theorem jumpWhen_transacts (taken : Word → Bool) (c t : Param) (s : State) :
    Transacts s (jumpWhen taken c t s) :=
  transact_transacts fun hf _ hu =>
    (readParam_ends c hu).bind fun x hx => by
      by_cases htaken : taken x.1 = true
      · rw [if_pos htaken]
        exact (readParam_ends t hx).bind fun y hy => (addrOf_ends y.1).bind fun _ hn => hy.jumpTo hn
      · rw [if_neg htaken]
        exact hx.advance hf

theorem execAdd_transacts (a b d : Param) (s : State) : Transacts s (execAdd a b d s) :=
  computeStore_transacts (fun _ _ => fit64_ends _ _) a b d

theorem execMul_transacts (a b d : Param) (s : State) : Transacts s (execMul a b d s) :=
  computeStore_transacts (fun _ _ => fit64_ends _ _) a b d

theorem execLt_transacts (a b d : Param) (s : State) : Transacts s (execLt a b d s) :=
  computeStore_transacts (fun _ _ => by simp) a b d

theorem execEq_transacts (a b d : Param) (s : State) : Transacts s (execEq a b d s) :=
  computeStore_transacts (fun _ _ => by simp) a b d

theorem execJt_transacts (c t : Param) (s : State) : Transacts s (execJt c t s) :=
  jumpWhen_transacts _ c t s

theorem execJf_transacts (c t : Param) (s : State) : Transacts s (execJf c t s) :=
  jumpWhen_transacts _ c t s

theorem execInp_transacts (d : Param) (s : State) : Transacts s (execInp d s) :=
  transact_transacts fun hf t ht =>
    (writeDest_ends 0 d (nextInput t) ht).bind fun _ hu => hu.consumeInput.advance hf

theorem execOut_transacts (a : Param) (s : State) : Transacts s (execOut a s) :=
  transact_transacts fun hf _ ht =>
    (readParam_ends a ht).bind fun x hx => (hx.advance hf).emit x.1

theorem execArb_transacts (v : Param) (s : State) : Transacts s (execArb v s) :=
  transact_transacts fun hf _ ht =>
    (readParam_ends v ht).bind fun _ hx =>
    (fit64_ends _ _).bind fun r _ => (hx.setRb r).advance hf

theorem execHlt_transacts (s : State) : Transacts s (execHlt s) :=
  transact_transacts fun hf _ ht => ht.halt hf

/-- Every instruction takes a known fault or commits, in every state. -/
theorem exec_transacts (i : Instr) (s : State) : Transacts s (exec i s) := by
  cases i with
  | add a b d => exact execAdd_transacts a b d s
  | mul a b d => exact execMul_transacts a b d s
  | inp d => exact execInp_transacts d s
  | out a => exact execOut_transacts a s
  | jt c t => exact execJt_transacts c t s
  | jf c t => exact execJf_transacts c t s
  | lt a b d => exact execLt_transacts a b d s
  | eq a b d => exact execEq_transacts a b d s
  | arb v => exact execArb_transacts v s
  | hlt => exact execHlt_transacts s

/-! The invariant. -/

/-- Every Step of a `Ready` Program takes a known fault or commits. -/
theorem step_transacts {s : State} (hready : s.st = .ready) : Transacts s (step s) := by
  rcases beginStep_cases s with ⟨-, i, -, hb⟩ | ⟨-, f, hf, hb⟩ | ⟨hst, -⟩
  · simpa [step, hb] using exec_transacts i s
  · have hknown := fetchInstr_ends s
    rw [hf, ends_error] at hknown
    simpa [step, hb] using Transacts.fault f hknown
  · exact absurd hready hst

/-- A Step on a terminal Program only marks it refused (60_exceptions.md R122). -/
theorem step_terminal {s : State} (hst : s.st ≠ .ready) :
    ∃ r, step s = .next (s.markRefused r) := by
  rcases beginStep_cases s with ⟨hready, -⟩ | ⟨hready, -⟩ | ⟨-, r, hb⟩
  · exact absurd hready hst
  · exact absurd hready hst
  · exact ⟨r, by simp [step, hb]⟩

theorem State.Inv.takeFault {s : State} {f : Fault} (h : s.Inv) (hf : f ≠ .unknownInputSlot) :
    (s.takeFault f).Inv :=
  { h with
    fault_ip := by rintro _ ⟨⟩; rfl
    fault_known := by rintro _ ⟨⟩; exact hf
    refused_terminal := fun _ => nofun }

theorem State.Inv.markRefused {s : State} (r : Refusal) (h : s.Inv) (hst : s.st ≠ .ready) :
    (s.markRefused r).Inv :=
  { h with refused_terminal := fun _ => hst }

/-- What an instruction commits from a `Ready` Program is no fault, so only the bounds matter. -/
theorem Commits.inv {s t : State} (h : Commits s t) (hinv : s.Inv) (hready : s.st = .ready) :
    t.Inv := by
  have hst : t.st = .ready ∨ t.st = .halted := hready ▸ h.st_cases
  have hno_fault : ∀ r, t.st ≠ .faulted r := by
    rcases hst with hst | hst <;> simp [hst]
  have hnot_refused : t.refused ≠ true := fun hr =>
    hinv.refused_terminal (h.refused_eq ▸ hr) hready
  exact
    { cfg_wf := h.cfg_eq ▸ hinv.cfg_wf
      mem_wf := h.mem_wf hinv.mem_wf
      len_le := h.cfg_eq ▸ h.len_le hinv.len_le
      ip_le := h.ip_le hinv.cfg_wf
      fault_ip := fun r hr => absurd hr (hno_fault r)
      fault_known := fun r hr => absurd hr (hno_fault r)
      refused_terminal := fun hr => absurd hr hnot_refused }

/-- Settles O42: a Step of a `Ready` Program takes a known fault or commits, and a Step of a
terminal one sets the refused mark. -/
theorem stepKeepsInvariant : Obligations.StepKeepsInvariant := by
  intro s t hinv hstep
  by_cases hready : s.st = .ready
  · have htrans := step_transacts hready
    rw [hstep] at htrans
    cases htrans with
    | fault f hf => exact hinv.takeFault hf
    | commit _ hc => exact hc.inv hinv hready
  · obtain ⟨r, hr⟩ := step_terminal hready
    obtain rfl : t = s.markRefused r := by simpa [hstep] using hr
    exact hinv.markRefused r hready

end Sys2Proof.Machine

/-! PROOF. What a Step keeps and how the cursor, the length, the status and the refused mark move
(10_state.md R11 to R22). Most of it is read off one relation, `Effect`: the states that an instruction
can answer, each written as the named updates of the state before it. The bound of `len` and the
faults that are taken come from `Transacts`. -/

namespace Sys2Proof.Machine

/-! The effect of an instruction. -/

/-- `t` is a state the instruction `i` run from `s` can answer: a fault taken from `s` itself, or `s`
with its memory grown, the destination's word written where `i` has one, and the last lines of the
rule of `i` (40_arith_compare.md R70 to R73, 41_io.md R80, R81, 42_control.md R90 to R92,
43_relative_base.md R100). -/
inductive Effect (s : State) : Instr → State → Prop where
  | fault (i : Instr) (f : Fault) : Effect s i (s.takeFault f)
  | store {i : Instr} {d : Param} {a : Nat} (l : Nat) (v : Word) : i.op.paramCount = 3 →
      i.dest = some d → Resolves s d a →
      Effect s i ((s.withMem ((s.growLen l).mem.set a v)).advance 4)
  | inp {d : Param} {a : Nat} (l : Nat) (v : Word) : Resolves s d a →
      Effect s (.inp d) ((s.withMem ((s.growLen l).mem.set a v)).consumeInput.advance 2)
  | out (p : Param) (l : Nat) (v : Word) : Effect s (.out p) (((s.growLen l).advance 2).emit v)
  | fallThrough {i : Instr} (l : Nat) : i.op.paramCount = 2 →
      Effect s i ((s.growLen l).advance 3)
  | jump {i : Instr} (l n : Nat) : i.op.paramCount = 2 → Effect s i ((s.growLen l).jumpTo n)
  | arb (p : Param) (l : Nat) (r : Word) : Effect s (.arb p) (((s.growLen l).setRb r).advance 2)
  | hlt (l : Nat) : Effect s .hlt (s.growLen l).halt

theorem readParam_grows (s : State) (p : Param) (k : Nat) :
    Ends (fun r => ∃ l, r.2 = s.growLen l) (readParam p (s.growLen k)) := by
  rcases source_cases s p with ⟨v, l, hr⟩ | ⟨f, hf⟩
  · rw [readParam_reads k hr]
    exact ⟨_, rfl⟩
  · rw [readParam_faults k hf]
    exact hf.ne_unknownInputSlot

theorem writeDest_sets (s : State) (k l : Nat) (d : Param) (v : Word) :
    Ends (fun u => ∃ a, Resolves s d a ∧ u = s.withMem ((s.growLen l).mem.set a v))
      (writeDest k d v (s.growLen l)) := by
  rcases dest_cases s k d with ⟨a, ha, hlim⟩ | ⟨f, hf⟩
  · rw [writeDest_ok k l v ha hlim]
    exact ⟨a, ha, rfl⟩
  · rw [writeDest_faults l v hf]
    exact hf.ne_unknownInputSlot

/-- A transaction has an effect of `i` when its lines, run after the fetches, end in one. -/
theorem transact_effect {n : Nat} {body : State → Except Fault State} {s t : State} {i : Instr}
    (hbody : Ends (Effect s i) (body (s.growLen (s.ip + (n + 1)))))
    (h : transact (n + 1) body s = .next t) : Effect s i t := by
  rcases transact_cases n body s with ⟨f, hf⟩ | ⟨u, -, hu, hnext⟩
  · obtain rfl : t = s.takeFault f := by simpa [h] using hf
    exact .fault i f
  · obtain rfl : t = u := by simpa [h] using hnext
    simpa [hu] using hbody

theorem computeStore_effect {alu : Config → Word → Word → Except Fault Word} {a b d : Param}
    {s t : State} {i : Instr} (hi : i.op.paramCount = 3) (hdest : i.dest = some d)
    (h : computeStore alu a b d s = .next t) : Effect s i t := by
  rcases computeStore_cases alu a b d s with ⟨f, hf⟩ | ⟨x, l, y, m, r, e, hw, hx, hy, hr, hd, he⟩
  · obtain rfl : t = s.takeFault f := by simpa [h] using hf
    exact .fault i f
  · rw [computeStore_ok hw hx hy hr hd he] at h
    cases h
    exact .store _ r hi hdest hd

theorem jumpWhen_effect {taken : Word → Bool} {c p : Param} {s t : State} {i : Instr}
    (hi : i.op.paramCount = 2) (h : jumpWhen taken c p s = .next t) : Effect s i t := by
  rcases jumpWhen_cases taken c p s with
    ⟨f, hf⟩ | ⟨x, l, -, -, -, hfall⟩ | ⟨x, l, y, m, -, -, -, -, -, hjump⟩
  · obtain rfl : t = s.takeFault f := by simpa [h] using hf
    exact .fault i f
  · rw [h] at hfall
    cases hfall
    exact .fallThrough _ hi
  · rw [h] at hjump
    cases hjump
    exact .jump _ _ hi

theorem execAdd_effect {a b d : Param} {s t : State} (h : execAdd a b d s = .next t) :
    Effect s (.add a b d) t :=
  computeStore_effect rfl rfl h

theorem execMul_effect {a b d : Param} {s t : State} (h : execMul a b d s = .next t) :
    Effect s (.mul a b d) t :=
  computeStore_effect rfl rfl h

theorem execLt_effect {a b d : Param} {s t : State} (h : execLt a b d s = .next t) :
    Effect s (.lt a b d) t :=
  computeStore_effect rfl rfl h

theorem execEq_effect {a b d : Param} {s t : State} (h : execEq a b d s = .next t) :
    Effect s (.eq a b d) t :=
  computeStore_effect rfl rfl h

theorem execJt_effect {c p : Param} {s t : State} (h : execJt c p s = .next t) :
    Effect s (.jt c p) t :=
  jumpWhen_effect rfl h

theorem execJf_effect {c p : Param} {s t : State} (h : execJf c p s = .next t) :
    Effect s (.jf c p) t :=
  jumpWhen_effect rfl h

theorem execInp_effect {d : Param} {s t : State} (h : execInp d s = .next t) :
    Effect s (.inp d) t := by
  refine transact_effect ((writeDest_sets s 0 _ d _).bind ?_) h
  rintro _ ⟨a, ha, rfl⟩
  exact .inp _ _ ha

theorem execOut_effect {p : Param} {s t : State} (h : execOut p s = .next t) :
    Effect s (.out p) t := by
  refine transact_effect ((readParam_grows s p _).bind ?_) h
  rintro ⟨v, _⟩ ⟨l, rfl⟩
  exact .out p l v

theorem execArb_effect {p : Param} {s t : State} (h : execArb p s = .next t) :
    Effect s (.arb p) t := by
  refine transact_effect ((readParam_grows s p _).bind ?_) h
  rintro ⟨v, _⟩ ⟨l, rfl⟩
  exact (fit64_ends _ _).bind fun r _ => .arb p l r

theorem execHlt_effect {s t : State} (h : execHlt s = .next t) : Effect s .hlt t :=
  transact_effect (body := fun u => .ok u.halt) (.hlt _) h

/-- Whatever an instruction answers is one of its effects. -/
theorem exec_effect {i : Instr} {s t : State} (h : exec i s = .next t) : Effect s i t := by
  cases i with
  | add a b d => exact execAdd_effect h
  | mul a b d => exact execMul_effect h
  | inp d => exact execInp_effect h
  | out p => exact execOut_effect h
  | jt c p => exact execJt_effect h
  | jf c p => exact execJf_effect h
  | lt a b d => exact execLt_effect h
  | eq a b d => exact execEq_effect h
  | arb p => exact execArb_effect h
  | hlt => exact execHlt_effect h

/-- What a Step can answer: the refused mark of a terminal Program, a fetch or decode fault taken, or
an effect of the instruction fetched. -/
theorem step_cases {s t : State} (h : step s = .next t) :
    (s.st ≠ .ready ∧ ∃ r, t = s.markRefused r) ∨
      (s.st = .ready ∧ ∃ f, t = s.takeFault f) ∨
      (s.st = .ready ∧ ∃ i, fetchInstr s = .ok i ∧ Effect s i t) := by
  rcases beginStep_cases s with ⟨hready, i, hi, hb⟩ | ⟨hready, f, -, hb⟩ | ⟨hst, r, hb⟩
  · exact .inr (.inr ⟨hready, i, hi, exec_effect (by simpa [step, hb] using h)⟩)
  · exact .inr (.inl ⟨hready, f, by simpa [step, hb, eq_comm] using h⟩)
  · exact .inl ⟨hst, r, by simpa [step, hb, eq_comm] using h⟩

/-! What every effect keeps. -/

namespace Effect

variable {i : Instr} {s t : State}

theorem rb_eq (h : Effect s i t) (hi : ∀ p, i ≠ .arb p) : t.rb = s.rb := by
  cases h with
  | arb p => exact absurd rfl (hi p)
  | _ => rfl

theorem inputs_cfg_eq (h : Effect s i t) : t.in1 = s.in1 ∧ t.in2 = s.in2 ∧ t.cfg = s.cfg := by
  cases h <;> exact ⟨rfl, rfl, rfl⟩

theorem refused_eq (h : Effect s i t) : t.refused = s.refused := by
  cases h <;> rfl

/-- Only an IN that completes moves the cursor, and it moves it to `Second`. -/
theorem cur_cases (h : Effect s i t) :
    t.cur = s.cur ∨ (∃ d, i = .inp d) ∧ t.cur = .second ∧ t.event = .continued := by
  cases h with
  | inp => exact .inr ⟨⟨_, rfl⟩, rfl, rfl⟩
  | _ => exact .inl rfl

theorem inp_cur {d : Param} (h : Effect s (.inp d) t) (hevent : t.event = .continued) :
    t.cur = .second := by
  cases h with
  | inp => rfl
  | fault => cases hevent
  | store _ _ hcount => cases hcount
  | fallThrough _ hcount => cases hcount
  | jump _ _ hcount => cases hcount

theorem len_mono (h : Effect s i t) : s.mem.len ≤ t.mem.len := by
  cases h with
  | fault => exact le_rfl
  | store => simp
  | inp => simp
  | _ => exact le_max_left _ _

/-- The status stays unless the outcome is a HLT's or a fault, and then it is the outcome's. -/
theorem st_cases (h : Effect s i t) :
    (t.st = s.st ∧ (t.event = .continued ∨ ∃ v, t.event = .output v)) ∨
      (t.st = .halted ∧ t.event = .halted ∧ i = .hlt) ∨
      ∃ r, t.st = .faulted r ∧ t.event = .faulted r := by
  cases h with
  | fault => exact .inr (.inr ⟨_, rfl, rfl⟩)
  | out _ _ v => exact .inl ⟨rfl, .inr ⟨v, rfl⟩⟩
  | hlt => exact .inr (.inl ⟨rfl, rfl, rfl⟩)
  | _ => exact .inl ⟨rfl, .inl rfl⟩

end Effect

/-- An instruction that was fetched has the opcode that the word at `ip` decodes to. -/
theorem decodeWord_of_fetchInstr {s : State} {i : Instr} (h : fetchInstr s = .ok i) :
    ∃ d, decodeWord s.cfg.surplusDigits (s.mem.get s.ip) = .ok d ∧ d.op = i.op := by
  rcases fetchInstr_cases s with ⟨-, hf⟩ | ⟨-, ⟨e, -, hf⟩ | ⟨d, hd, hf⟩⟩
  · simp [h] at hf
  · simp [h] at hf
  · rw [h] at hf
    cases hf
    exact ⟨d, hd, (build_op d _).symm⟩

/-! The statements of 10_state.md. -/

/-- Settles O27, by the frame of `rb` over the effects of the instruction. -/
theorem onlyArbWritesRelativeBase : Obligations.OnlyArbWritesRelativeBase :=
  fun _ _ _ h hi => (exec_effect h).rb_eq hi

/-- Settles O28, by what a Step can answer: no update it makes names these fields. -/
theorem stepKeepsInputsAndParameters : Obligations.StepKeepsInputsAndParameters := by
  intro s t h
  rcases step_cases h with ⟨-, r, rfl⟩ | ⟨-, f, rfl⟩ | ⟨-, i, -, heff⟩
  · exact ⟨rfl, rfl, rfl⟩
  · exact ⟨rfl, rfl, rfl⟩
  · exact heff.inputs_cfg_eq

/-- Settles O29: the cursor is kept by everything but a completing IN, which sets it to `Second`. -/
theorem cursorMovesOnce : Obligations.CursorMovesOnce := by
  refine ⟨fun s t h hcur => ?_, fun d s t h => (exec_effect h).inp_cur, fun i s t h hne =>
    (exec_effect h).cur_cases.resolve_left hne⟩
  rcases step_cases h with ⟨-, r, rfl⟩ | ⟨-, f, rfl⟩ | ⟨-, i, -, heff⟩
  · exact hcur
  · exact hcur
  · rcases heff.cur_cases with hkept | ⟨-, hsecond, -⟩
    · exact hkept.trans hcur
    · exact hsecond

theorem step_len_mono {s t : State} (h : step s = .next t) : s.mem.len ≤ t.mem.len := by
  rcases step_cases h with ⟨-, r, rfl⟩ | ⟨-, f, rfl⟩ | ⟨-, i, -, heff⟩
  · exact le_rfl
  · exact le_rfl
  · exact heff.len_mono

theorem step_len_le_memLimit {s t : State} (h : step s = .next t)
    (hlen : s.mem.len ≤ s.cfg.memLimit) : t.mem.len ≤ t.cfg.memLimit := by
  by_cases hready : s.st = .ready
  · have htrans : Transacts s (.next t) := h ▸ step_transacts hready
    cases htrans with
    | fault => exact hlen
    | commit _ hc => exact hc.cfg_eq ▸ hc.len_le hlen
  · obtain ⟨r, hr⟩ := step_terminal hready
    obtain rfl : t = s.markRefused r := by simpa [h] using hr
    exact hlen

/-- Settles O31: every access grows the memory, and only at an address below `MEM_LIMIT`. -/
theorem lengthNeverShrinks : Obligations.LengthNeverShrinks :=
  fun _ _ h => ⟨step_len_mono h, step_len_le_memLimit h⟩

/-- Settles O36: the faults that a Step takes are known ones, and what it commits is no fault. -/
theorem unknownInputSlotNeverRaised : Obligations.UnknownInputSlotNeverRaised := by
  intro s t r hready h hst
  have htrans : Transacts s (.next t) := h ▸ step_transacts hready
  cases htrans with
  | fault f hf =>
    cases hst
    exact hf
  | commit _ hc =>
    rcases hc.st_cases with hkept | hhalted
    · cases hst.symm.trans (hkept.trans hready)
    · cases hst.symm.trans hhalted

/-- Settles O39, by what the effects of the fetched instruction do to the status. -/
theorem statusTransitions : Obligations.StatusTransitions := by
  intro s t h
  rcases step_cases h with ⟨hst, r, rfl⟩ | ⟨hready, f, rfl⟩ | ⟨hready, i, hi, heff⟩
  · exact ⟨fun _ => rfl, fun hready => absurd hready hst⟩
  · exact ⟨fun hst => absurd hready hst, fun _ => .inr (.inr ⟨_, rfl, rfl⟩)⟩
  · refine ⟨fun hst => absurd hready hst, fun _ => ?_⟩
    rcases heff.st_cases with ⟨hst, hevent⟩ | ⟨hst, hevent, rfl⟩ | hfaulted
    · exact .inl ⟨hst.trans hready, hevent⟩
    · exact .inr (.inl ⟨hst, hevent, decodeWord_of_fetchInstr hi⟩)
    · exact .inr (.inr hfaulted)

/-- Settles O40: a Step of a `Ready` Program keeps the mark, and one of a terminal Program sets it. -/
theorem refusedMarkRule : Obligations.RefusedMarkRule := by
  intro s t h
  rcases step_cases h with ⟨hst, r, rfl⟩ | ⟨hready, f, rfl⟩ | ⟨hready, i, -, heff⟩
  · simp [hst]
  · simp [hready]
  · simp [heff.refused_eq, hready]

end Sys2Proof.Machine

/-! PROOF. Memory as the instructions see it (20_memory.md): what the growing accesses and the
operand forms do, that an instruction's words decode back to it (30_encoding.md R63) and run from
`ip`, and which words an instruction may write. The last rests on the effects of an instruction. -/

namespace Sys2Proof

/-! The canonical instruction word (30_encoding.md R63). -/

theorem Op.code_lt (op : Op) : op.code < 100 := by
  cases op <;> decide

theorem Mode.digit_le (m : Mode) : m.digit ≤ 2 := by
  cases m <;> decide

theorem digit_eq_zero {j n : Nat} (h : n < 10 ^ j) : digit j n = 0 := by
  rw [digit, Nat.div_eq_of_lt h]

/-- A digit that writes a mode decodes to it (30_encoding.md R53). -/
theorem decodeMode_of_digit {w : Word} {k : Nat} {m : Mode} (h : digit (k + 2) w.toNat = m.digit) :
    decodeMode w k = .ok m := by
  rw [decodeMode, h]
  cases m <;> rfl

/-- The canonical word has five digits: those of its opcode and of the three modes. -/
theorem canonicalWord_fields (op : Op) (m0 m1 m2 : Mode) :
    (canonicalWord op m0 m1 m2).toNat < 10 ^ 5 ∧
      (canonicalWord op m0 m1 m2).toNat % 100 = op.code ∧
      digit 2 (canonicalWord op m0 m1 m2).toNat = m0.digit ∧
      digit 3 (canonicalWord op m0 m1 m2).toNat = m1.digit ∧
      digit 4 (canonicalWord op m0 m1 m2).toNat = m2.digit := by
  have hop := op.code_lt
  have h0 := m0.digit_le
  have h1 := m1.digit_le
  have h2 := m2.digit_le
  have hword : (canonicalWord op m0 m1 m2).toNat =
      op.code + 100 * m0.digit + 1000 * m1.digit + 10000 * m2.digit := by
    rw [canonicalWord, BitVec.toNat_ofNat, Nat.mod_eq_of_lt (by omega)]
  rw [hword]
  simp only [digit]
  omega

/-- The canonical word of an instruction, the first word of its encoding. -/
def Instr.canonical (i : Instr) : Word :=
  canonicalWord i.op (modeAt i.params 0) (modeAt i.params 1) (modeAt i.params 2)

theorem encode_getD_zero (i : Instr) : (encode i).getD 0 0#64 = i.canonical := rfl

/-- A slot that the opcode does not have counts as Position (30_encoding.md R63). -/
theorem modeAt_params_of_le {i : Instr} {k : Nat} (h : i.op.paramCount ≤ k) :
    modeAt i.params k = .position := by
  have hlen : i.params.length = i.op.paramCount := by cases i <;> rfl
  rw [modeAt, List.getElem?_eq_none (hlen ▸ h)]

namespace Instr

variable (i : Instr)

theorem canonical_lt : i.canonical.toNat < 10 ^ 5 := (canonicalWord_fields ..).1

theorem canonical_mod : i.canonical.toNat % 100 = i.op.code := (canonicalWord_fields ..).2.1

theorem canonical_toInt_nonneg : 0 ≤ i.canonical.toInt := by
  have hlt := i.canonical_lt
  rw [BitVec.toInt_eq_toNat_of_lt (by omega)]
  omega

/-- Every mode digit of the canonical word is that of its slot, or 0 where there is no slot. -/
theorem digit_canonical (k : Nat) :
    digit (k + 2) i.canonical.toNat = (modeAt i.params k).digit := by
  obtain ⟨-, -, h0, h1, h2⟩ :=
    canonicalWord_fields i.op (modeAt i.params 0) (modeAt i.params 1) (modeAt i.params 2)
  match k with
  | 0 => exact h0
  | 1 => exact h1
  | 2 => exact h2
  | k + 3 =>
    have hcount : i.op.paramCount ≤ k + 3 := by cases i <;> simp [op, Op.paramCount]
    have hpow : 10 ^ 5 ≤ 10 ^ (k + 3 + 2) := Nat.pow_le_pow_right (by omega) (by omega)
    rw [modeAt_params_of_le hcount, digit_eq_zero (i.canonical_lt.trans_le hpow), Mode.digit]

theorem slotMode_canonical (k : Nat) : slotMode i.canonical i.op k = .ok (modeAt i.params k) := by
  by_cases hk : k < i.op.paramCount
  · rw [slotMode, if_pos hk, decodeMode_of_digit (i.digit_canonical k)]
  · rw [slotMode, if_neg hk, modeAt_params_of_le (by omega)]

theorem surplusCheck_canonical (sd : SurplusDigits) :
    surplusCheck sd i.canonical i.op = .ok () := by
  cases sd with
  | ignore => rfl
  | validate => exact checkSurplus_ok _ fun j _ => i.digit_canonical j ▸ Mode.digit_le _

/-- The canonical word decodes to its opcode and modes, under both settings. -/
theorem decodeWord_canonical (sd : SurplusDigits) :
    decodeWord sd i.canonical =
      .ok ⟨i.op, modeAt i.params 0, modeAt i.params 1, modeAt i.params 2⟩ := by
  simp [decodeWord, decodeOp_ok i.canonical_toInt_nonneg i.canonical_mod, slotMode_canonical,
    surplusCheck_canonical, bind, Except.bind, pure, Except.pure]

end Instr

/-! An instruction's words decode back to it. -/

/-- Only the operand words of the opcode's own slots count (30_encoding.md R57). -/
theorem build_congr {d : Decoded} {o o' : Nat → Word} (h : ∀ k, k < d.op.paramCount → o k = o' k) :
    d.build o = d.build o' := by
  obtain ⟨op, m0, m1, m2⟩ := d
  cases op <;> simp_all [Decoded.build, Op.paramCount]

/-- An instruction is built from its opcode, its modes and the operand words of its encoding. -/
theorem build_of_encode {i : Instr} {o : Nat → Word}
    (h : ∀ k, k < i.op.paramCount → o k = (encode i).getD (k + 1) 0#64) :
    Decoded.build ⟨i.op, modeAt i.params 0, modeAt i.params 1, modeAt i.params 2⟩ o = i := by
  rw [build_congr h]
  cases i <;> rfl

theorem decode_encode_append (sd : SurplusDigits) (i : Instr) (rest : List Word) :
    decode sd (encode i ++ rest) = .ok (i, rest) := by
  have hword : (encode i ++ rest).getD 0 0#64 = i.canonical :=
    (List.getD_append _ _ _ _ (by simp)).trans (encode_getD_zero i)
  have hbuild := build_of_encode (i := i) (o := fun k => (encode i ++ rest).getD (k + 1) 0#64)
    fun k hk => List.getD_append _ _ _ _ (by rw [encode_length]; omega)
  have hrest : (encode i ++ rest).drop (1 + i.op.paramCount) = rest :=
    List.drop_left' (encode_length i)
  simp only [decode, hword, i.decodeWord_canonical, hbuild, hrest]

end Sys2Proof

namespace Sys2Proof.Machine

/-! Growing accesses (20_memory.md R31, R32). -/

theorem max_succ_eq_ite (l a : Nat) : max l (a + 1) = if l ≤ a then a + 1 else l := by
  split <;> omega

/-- Settles O8: below `MEM_LIMIT` a read grows the memory, whose words past `len` are 0. -/
theorem memReadRule : Obligations.MemReadRule := by
  intro a s hwf
  refine ⟨memRead_limit, fun h => ⟨(s.growLen (a + 1)).mem, ?_, ?_, ?_, ?_⟩⟩
  · have hword : s.mem.get a = if a < s.mem.len then s.mem.get a else 0#64 := by
      split
      · rfl
      · exact Memory.get_of_len_le hwf (by omega)
    rw [memRead_ok h, ← hword]
    rfl
  · rw [State.growLen_len, max_succ_eq_ite]
  · exact s.growLen_get (a + 1)
  · exact fun b hb => Memory.get_of_len_le hwf hb

/-- Settles O9: below `MEM_LIMIT` a write is `Memory.set`, which changes the one word. -/
theorem memWriteRule : Obligations.MemWriteRule := by
  intro a v s hwf
  refine ⟨memWrite_limit v, fun h => ⟨s.mem.set a v, memWrite_ok v h, ?_, ?_, ?_, ?_⟩⟩
  · rw [Memory.len_set, max_succ_eq_ite]
  · exact s.mem.get_set_same a v
  · exact fun b hb => s.mem.get_set_other v hb
  · exact fun b hb hne => (s.mem.get_set_other v hne).trans (Memory.get_of_len_le hwf hb)

/-! Operand forms (20_memory.md R35, R36). -/

theorem addrOf_nonneg {x : Word} (h : 0 ≤ x.toInt) : addrOf x = .ok x.toNat := by
  rw [addrOf, if_neg (by omega)]

theorem relativeAddr_ok {o a : Word} {s : State}
    (h : fit64 s.cfg.arithOverflow (s.rb.toInt + o.toInt) = .ok a) :
    relativeAddr o s = addrOf a := by
  rw [relativeAddr, h]

theorem relativeAddr_error {o : Word} {s : State} {f : Fault}
    (h : fit64 s.cfg.arithOverflow (s.rb.toInt + o.toInt) = .error f) :
    relativeAddr o s = .error f := by
  rw [relativeAddr, h]

theorem readParam_relative (o : Word) (s : State) :
    readParam ⟨.relative, o⟩ s = readAt (relativeAddr o s) s := rfl

theorem destAddr_relative (k : Nat) (o : Word) (s : State) :
    destAddr k ⟨.relative, o⟩ s = relativeAddr o s := rfl

theorem readAt_addrOf_negative {x : Word} (s : State) (h : x.toInt < 0) :
    readAt (addrOf x) s = .error (.negativeAddress x) := by
  rw [addrOf_negative h, readAt]

theorem readAt_addrOf_nonneg {x : Word} (s : State) (h : 0 ≤ x.toInt) :
    readAt (addrOf x) s = memRead x.toNat s := by
  rw [addrOf_nonneg h, readAt]

/-- Settles O10: a Position slot reads at its own word, a Relative one at the checked sum. -/
theorem readParamRule : Obligations.ReadParamRule := by
  intro s o
  refine ⟨readAt_addrOf_negative s, readAt_addrOf_nonneg s, rfl, fun f hf => ?_, fun a ha => ?_⟩
  · rw [readParam_relative, relativeAddr_error hf, readAt]
  · rw [readParam_relative, relativeAddr_ok ha]
    exact ⟨readAt_addrOf_negative s, readAt_addrOf_nonneg s⟩

/-- Settles O11: the addresses of O10, without the read; an Immediate slot has none. -/
theorem destAddrRule : Obligations.DestAddrRule := by
  intro s k o
  refine ⟨addrOf_negative, addrOf_nonneg, rfl, fun f hf => ?_, fun a ha => ?_⟩
  · rw [destAddr_relative, relativeAddr_error hf]
  · rw [destAddr_relative, relativeAddr_ok ha]
    exact ⟨addrOf_negative, addrOf_nonneg⟩

/-! The words at `ip`. -/

/-- Settles O33: the words from `ip` on decode to the instruction that they encode. -/
theorem stepRunsEncodedInstruction : Obligations.StepRunsEncodedInstruction := by
  intro s i hready hip hwords
  have hword : s.mem.get s.ip = i.canonical := (hwords 0 (by simp)).trans (encode_getD_zero i)
  have hdecode := i.decodeWord_canonical s.cfg.surplusDigits
  have hbuild := build_of_encode (i := i) (o := fun k => s.mem.get (s.ip + 1 + k)) fun k hk => by
    rw [show s.ip + 1 + k = s.ip + (k + 1) by omega]
    exact hwords (k + 1) (by rw [encode_length]; omega)
  have hfetch : fetchInstr s = .ok i := by
    rcases fetchInstr_cases s with ⟨hlim, -⟩ | ⟨-, ⟨e, he, -⟩ | ⟨d, hd, hf⟩⟩
    · omega
    · simp [hword, hdecode] at he
    · rw [hword, hdecode] at hd
      cases hd
      rw [hf, hbuild]
  simp [step, beginStep, hready, hfetch]

/-! The destination slot. -/

/-- The instructions with two slots are the jumps, which have no destination. -/
theorem dest_eq_none_of_paramCount {i : Instr} (h : i.op.paramCount = 2) : i.dest = none := by
  cases i with
  | add | mul | inp | lt | eq => cases h
  | _ => rfl

theorem wellFormed_eq_false {i : Instr} (h : i.wellFormed = false) :
    ∃ d, i.dest = some d ∧ d.mode = .immediate := by
  unfold Instr.wellFormed at h
  split at h
  next d hd =>
    refine ⟨d, hd, ?_⟩
    cases hm : d.mode <;> simp_all [Mode.isDest]
  next => cases h

theorem exec_next (i : Instr) (s : State) : ∃ t, exec i s = .next t := by
  cases hexec : exec i s with
  | next t => exact ⟨t, rfl⟩
  | _ => exact absurd (hexec ▸ exec_transacts i s) nofun

namespace Effect

variable {i : Instr} {s t : State}

/-- A word that the destination slot does not name keeps its value. -/
theorem get_eq (h : Effect s i t) {a : Nat} (ha : ∀ d, i.dest = some d → ¬ Resolves s d a) :
    t.mem.get a = s.mem.get a := by
  cases h with
  | store l v _ hdest hd =>
    exact Memory.get_set_other _ v fun hab => ha _ hdest (hab ▸ hd)
  | inp l v hd =>
    exact Memory.get_set_other _ v fun hab => ha _ rfl (hab ▸ hd)
  | _ => rfl

/-- An Immediate destination names no address, so what is left of the effects is the fault. -/
theorem eq_takeFault (h : Effect s i t) {d : Param} (hdest : i.dest = some d)
    (hm : d.mode = .immediate) : ∃ f, t = s.takeFault f := by
  cases h with
  | fault _ f => exact ⟨f, rfl⟩
  | store _ _ _ hd ha =>
    obtain rfl := Option.some.inj (hdest.symm.trans hd)
    exact absurd hm ha.not_immediate
  | inp _ _ ha =>
    cases hdest
    exact absurd hm ha.not_immediate
  | fallThrough _ hcount => cases hdest.symm.trans (dest_eq_none_of_paramCount hcount)
  | jump _ _ hcount => cases hdest.symm.trans (dest_eq_none_of_paramCount hcount)
  | _ => cases hdest

end Effect

/-- Settles O24: the words decode back to every instruction, and no effect of one with an Immediate
destination completes. -/
theorem immediateDestinationNeverCompletes : Obligations.ImmediateDestinationNeverCompletes := by
  intro i s hwf
  refine ⟨fun sd rest => decode_encode_append sd i rest, ?_⟩
  obtain ⟨d, hdest, hm⟩ := wellFormed_eq_false hwf
  obtain ⟨t, ht⟩ := exec_next i s
  obtain ⟨f, rfl⟩ := (exec_effect ht).eq_takeFault hdest hm
  exact ⟨f, ht⟩

/-- Settles O30, by the frame of memory over the effects of the instruction. -/
theorem onlyTheDestinationIsWritten : Obligations.OnlyTheDestinationIsWritten := by
  intro i s t h
  refine ⟨fun hnone a => (exec_effect h).get_eq fun d hd => ?_, fun d hdest a ha =>
    (exec_effect h).get_eq fun e he => ?_⟩
  · cases hnone.symm.trans hd
  · cases hdest.symm.trans he
    exact ha

end Sys2Proof.Machine

/-! PROOF. Encoding (30_encoding.md): what the decoder answers for every word, what it takes from a
list of words, the words of the test vectors, assembly lines and the
pseudo-instructions. The decoder's answer follows its order (R55): the opcode, the slot digits, then
the surplus digits. -/

namespace Sys2Proof

open Machine (SlotModeIs)

/-! The parts of the decoder (30_encoding.md R55, R56). -/

/-- A sequence of two lines that may fault answers `b` when both do their part. -/
theorem except_bind_eq_ok {ε α β : Type} {x : Except ε α} {k : α → Except ε β} {b : β} :
    (x >>= k) = .ok b ↔ ∃ a, x = .ok a ∧ k a = .ok b := by
  cases x <;> simp [bind, Except.bind]

theorem Op.paramCount_le (op : Op) : op.paramCount ≤ 3 := by
  cases op <;> decide

/-- The opcode of a word is refused by name, or it is the one of its last two digits. -/
theorem decodeOp_cases (w : Word) :
    ((w.toInt < 0 ∨ ∀ op : Op, w.toNat % 100 ≠ op.code) ∧
        decodeOp w = .error (.invalidOpcode w)) ∨
      ∃ op, 0 ≤ w.toInt ∧ w.toNat % 100 = op.code ∧ decodeOp w = .ok op := by
  by_cases h0 : w.toInt < 0
  · exact .inl ⟨.inl h0, by rw [decodeOp, if_pos h0]⟩
  · cases hc : opOfCode (w.toNat % 100) with
    | none =>
      refine .inl ⟨.inr fun op h => ?_, by rw [decodeOp, if_neg h0, hc]⟩
      simp [(opOfCode_iff _ op).2 h] at hc
    | some op =>
      have hcode := (opOfCode_iff _ op).1 hc
      exact .inr ⟨op, by omega, hcode, decodeOp_ok (by omega) hcode⟩

theorem slotMode_ok {w : Word} {op : Op} {k : Nat}
    (h : k < op.paramCount → digit (k + 2) w.toNat ≤ 2) :
    ∃ m, slotMode w op k = .ok m ∧ SlotModeIs op w.toNat k m := by
  by_cases hk : k < op.paramCount
  · obtain ⟨m, hm, hdigit⟩ := decodeMode_ok (h hk)
    exact ⟨m, by rw [slotMode, if_pos hk, hm], by rw [SlotModeIs, if_pos hk, hdigit]⟩
  · exact ⟨.position, by rw [slotMode, if_neg hk], by rw [SlotModeIs, if_neg hk, Mode.digit]⟩

theorem slotMode_error {w : Word} {op : Op} {k : Nat} (hk : k < op.paramCount)
    (h : 2 < digit (k + 2) w.toNat) :
    slotMode w op k = .error (.invalidAddressingMode w k (digit (k + 2) w.toNat)) := by
  rw [slotMode, if_pos hk, decodeMode_error h]

/-- A word has at most twenty digits, so the surplus loop's bound reaches every digit above 2. -/
theorem lt_maxDigits_of_digit {w : Word} {k : Nat} (h : 2 < digit (k + 2) w.toNat) :
    k < maxDigits := by
  by_contra hk
  have hpow : 10 ^ 21 ≤ 10 ^ (k + 2) :=
    Nat.pow_le_pow_right (by omega) (by unfold maxDigits at hk; omega)
  have hw := w.isLt
  rw [digit_eq_zero (by omega)] at h
  omega

/-! The answer of the decoder. -/

section

variable {w : Word} {op : Op} (hop : decodeOp w = .ok op)

include hop

/-- With no slot digit above 2 the modes are those of the word's digits, and what is left is the
surplus check. -/
theorem decodeWord_of_slots (hslots : ∀ k, k < op.paramCount → digit (k + 2) w.toNat ≤ 2) :
    ∃ d : Decoded, d.op = op ∧ SlotModeIs op w.toNat 0 d.mode0 ∧ SlotModeIs op w.toNat 1 d.mode1 ∧
      SlotModeIs op w.toNat 2 d.mode2 ∧
      ∀ sd, decodeWord sd w = (do surplusCheck sd w op; pure d) := by
  obtain ⟨m0, h0, hm0⟩ := slotMode_ok (hslots 0)
  obtain ⟨m1, h1, hm1⟩ := slotMode_ok (hslots 1)
  obtain ⟨m2, h2, hm2⟩ := slotMode_ok (hslots 2)
  exact ⟨⟨op, m0, m1, m2⟩, rfl, hm0, hm1, hm2, fun sd => by
    simp [decodeWord, hop, h0, h1, h2, bind, Except.bind]⟩

/-- A bad slot digit is reported when the slots before it have none. -/
theorem decodeWord_slot_error (sd : SurplusDigits) {k : Nat} (hk : k < op.paramCount)
    (hbad : 2 < digit (k + 2) w.toNat) (hfirst : ∀ j, j < k → digit (j + 2) w.toNat ≤ 2) :
    decodeWord sd w = .error (.invalidAddressingMode w k (digit (k + 2) w.toNat)) := by
  have hle := op.paramCount_le
  have herr := slotMode_error hk hbad
  have hok : ∀ j, j < k → ∃ m, slotMode w op j = .ok m := fun j hj =>
    (slotMode_ok fun _ => hfirst j hj).imp fun _ h => h.1
  match k with
  | 0 => simp [decodeWord, hop, herr, bind, Except.bind]
  | 1 =>
    obtain ⟨m0, h0⟩ := hok 0 (by omega)
    simp [decodeWord, hop, h0, herr, bind, Except.bind]
  | 2 =>
    obtain ⟨m0, h0⟩ := hok 0 (by omega)
    obtain ⟨m1, h1⟩ := hok 1 (by omega)
    simp [decodeWord, hop, h0, h1, herr, bind, Except.bind]
  | k + 3 => omega

/-- A bad surplus digit is reported under `Validate` when no digit before it is bad. -/
theorem decodeWord_surplus_error {k : Nat} (hk : op.paramCount ≤ k)
    (hbad : 2 < digit (k + 2) w.toNat) (hfirst : ∀ j, j < k → digit (j + 2) w.toNat ≤ 2) :
    decodeWord .validate w = .error (.invalidAddressingMode w k (digit (k + 2) w.toNat)) := by
  obtain ⟨d, -, -, -, -, hd⟩ := decodeWord_of_slots hop fun j hj => hfirst j (hj.trans_le hk)
  have hbound := lt_maxDigits_of_digit hbad
  rw [hd, surplusCheck, checkSurplus_error hk (by omega) hbad fun j _ hj => hfirst j hj]
  rfl

end

/-- A surplus check passes when no digit that it looks at is above 2. -/
theorem surplusCheck_ok {sd : SurplusDigits} {w : Word} {op : Op}
    (h : sd = .validate → ∀ k, op.paramCount ≤ k → digit (k + 2) w.toNat ≤ 2) :
    surplusCheck sd w op = .ok () := by
  cases sd with
  | ignore => rfl
  | validate => exact checkSurplus_ok _ (h rfl)

/-- Settles O2: a bad slot digit is found by its slot, a bad surplus digit by the surplus loop. -/
theorem decoderRule : Obligations.DecoderRule := by
  intro sd w
  refine ⟨fun h => ?_, fun op h0 hc => ?_⟩
  · rcases decodeOp_cases w with ⟨-, herr⟩ | ⟨op, h0, hc, -⟩
    · simp [decodeWord, herr, bind, Except.bind]
    · exact h.elim (fun hneg => by omega) fun hnone => absurd hc (hnone op)
  · have hop := decodeOp_ok h0 hc
    refine ⟨fun k hk hbad hfirst => ?_, fun hall => ?_⟩
    · by_cases hslot : k < op.paramCount
      · exact decodeWord_slot_error hop sd hslot hbad fun j hj =>
          hfirst j hj (.inl (hj.trans hslot))
      · obtain rfl : sd = .validate := hk.resolve_left hslot
        exact decodeWord_surplus_error hop (by omega) hbad fun j hj => hfirst j hj (.inr rfl)
    · obtain ⟨d, hd, hm0, hm1, hm2, hdecode⟩ := decodeWord_of_slots hop fun k hk => hall k (.inl hk)
      have hcheck : surplusCheck sd w op = .ok () :=
        surplusCheck_ok fun hsd k _ => hall k (.inr hsd)
      exact ⟨d, by rw [hdecode, hcheck]; rfl, hd, hm0, hm1, hm2⟩

/-- Settles O3: the settings differ in the surplus check only, which passes under both. -/
theorem surplusSettingsAgree : Obligations.SurplusSettingsAgree := by
  intro w h
  rcases decodeOp_cases w with ⟨-, herr⟩ | ⟨op, -, hc, hop⟩
  · simp [decodeWord, herr, bind, Except.bind]
  · have hcheck (sd : SurplusDigits) : surplusCheck sd w op = .ok () :=
      surplusCheck_ok fun _ => h op hc
    simp [decodeWord, hop, hcheck, bind, Except.bind]

/-! Decoding a list of words. -/

/-- Settles O1, by the canonical word's own fields. -/
theorem decodeOfEncodeGivesInstruction : Obligations.DecodeOfEncodeGivesInstruction :=
  fun sd i rest => ⟨rfl, encode_length i, decode_encode_append sd i rest⟩

/-- A word that decodes has the opcode of its last two digits. -/
theorem decodeWord_op_code {sd : SurplusDigits} {w : Word} {d : Decoded}
    (h : decodeWord sd w = .ok d) : d.op.code = w.toNat % 100 := by
  simp only [decodeWord, except_bind_eq_ok] at h
  obtain ⟨op, hop, m0, -, m1, -, m2, -, -, -, hd⟩ := h
  obtain rfl : _ = d := Except.ok.inj hd
  rcases decodeOp_cases w with ⟨-, herr⟩ | ⟨op', -, hc, hok⟩
  · simp [hop] at herr
  · obtain rfl : op = op' := by simpa [hop] using hok
    exact hc.symm

/-- The operand words of a built instruction are the first `n(op)` it is given. -/
theorem build_words (d : Decoded) (o : Nat → Word) :
    (d.build o).params.map Param.word = (List.range d.op.paramCount).map o := by
  obtain ⟨op, m0, m1, m2⟩ := d
  cases op <;> rfl

/-- A list that decodes is a first word that does, with the instruction built from what follows. -/
theorem decode_eq_ok {sd : SurplusDigits} {ws : List Word} {i : Instr} {rest : List Word}
    (h : decode sd ws = .ok (i, rest)) :
    ∃ d, decodeWord sd (ws.getD 0 0#64) = .ok d ∧ i = d.build (fun k => ws.getD (k + 1) 0#64) ∧
      rest = ws.drop (1 + d.op.paramCount) := by
  unfold decode at h
  split at h
  next d hd =>
    cases h
    exact ⟨d, hd, rfl, rfl⟩
  next => cases h

/-- Settles O4: the instruction is built from the word's opcode and the words that follow it. -/
theorem decodeTakesOpcodeAndOperandWords : Obligations.DecodeTakesOpcodeAndOperandWords := by
  intro sd ws i rest h
  obtain ⟨d, hd, rfl, rfl⟩ := decode_eq_ok h
  rw [build_op]
  exact ⟨decodeWord_op_code hd, build_words d _, rfl⟩

/-- Settles O5: the slots of a decoded instruction are counted by their operand words. -/
theorem parameterCountRule : Obligations.ParameterCountRule := by
  refine ⟨fun op => by cases op <;> rfl, fun sd ws i rest h => ?_⟩
  obtain ⟨hcode, hwords, -⟩ := decodeTakesOpcodeAndOperandWords sd ws i rest h
  exact ⟨by simpa using congrArg List.length hwords, hcode⟩

/-- Settles O6: the legal words are the canonical words of instructions, whatever their operand
words; the others are refused at the digit 3 of slot 1 and for the sign. -/
theorem vectorWordsDecode : Obligations.VectorWordsDecode := by
  intro sd
  exact ⟨(Instr.add ⟨.position, 0⟩ ⟨.immediate, 0⟩ ⟨.relative, 0⟩).decodeWord_canonical sd,
    (Instr.mul ⟨.position, 0⟩ ⟨.immediate, 0⟩ ⟨.position, 0⟩).decodeWord_canonical sd,
    (Instr.inp ⟨.relative, 0⟩).decodeWord_canonical sd,
    (Instr.out ⟨.immediate, 0⟩).decodeWord_canonical sd,
    (Instr.jt ⟨.immediate, 0⟩ ⟨.immediate, 0⟩).decodeWord_canonical sd,
    (Instr.jf ⟨.immediate, 0⟩ ⟨.relative, 0⟩).decodeWord_canonical sd,
    (Instr.lt ⟨.immediate, 0⟩ ⟨.immediate, 0⟩ ⟨.position, 0⟩).decodeWord_canonical sd,
    (Instr.eq ⟨.position, 0⟩ ⟨.immediate, 0⟩ ⟨.position, 0⟩).decodeWord_canonical sd,
    (Instr.arb ⟨.immediate, 0⟩).decodeWord_canonical sd,
    Instr.hlt.decodeWord_canonical sd,
    decodeWord_slot_error (op := .add) (k := 1) rfl sd (by decide) (by decide) (by decide),
    (decoderRule sd _).1 (.inl (by decide))⟩

end Sys2Proof

namespace Sys2Proof.Machine

/-! Assembly lines (30_encoding.md R64, R65). -/

theorem instrOf_op_params (i : Instr) : instrOf i.op i.params = some i := by
  cases i <;> rfl

/-- A line that expands to the line of the instruction `i` has its words and its size. -/
theorem words_size_of_expand {labels : List (String × Nat)} {line : AsmLine} {i : Instr}
    {operands : List AsmOperand} (hline : line.expand = .instr i.op operands)
    (h : operands.mapM (AsmOperand.resolve labels) = some i.params) :
    line.words labels = some (encode i) ∧ line.size = (encode i).length := by
  refine ⟨?_, ?_⟩
  · simp [AsmLine.words, hline, h, instrOf_op_params]
  · simp [AsmLine.size, hline]

theorem resolve_imm_lit (labels : List (String × Nat)) (w : Word) :
    (AsmOperand.imm (.lit w)).resolve labels = some ⟨.immediate, w⟩ := rfl

/-- Settles O26: every line named expands to an instruction's line. -/
theorem assemblyLineRule : Obligations.AssemblyLineRule := by
  intro labels
  refine ⟨fun operands i h => words_size_of_expand rfl h, fun t p ht => ?_,
    fun t u p d ht hu => ?_, words_size_of_expand (i := pseudoNop) rfl rfl⟩
  · exact words_size_of_expand (i := pseudoJmp p) rfl
      (by simp [ht, resolve_imm_lit, pseudoJmp, Instr.params])
  · exact words_size_of_expand (i := pseudoMov p d) rfl
      (by simp [ht, hu, resolve_imm_lit, pseudoMov, Instr.params])

/-! The pseudo-instructions (30_encoding.md R65). -/

section

variable {taken : Word → Bool} {c t : Param} {s : State} {x y : Word} {l m : Nat}

theorem jumpWhen_fallThrough (hf : Fetchable s 3) (hc : SourceReads s c x l)
    (hx : taken x = false) :
    jumpWhen taken c t s = .next ((s.growLen (max (s.ip + 3) l)).advance 3) := by
  apply transact_ok hf
  simp [readParam_reads _ hc, hx, bind, Except.bind, pure, Except.pure]

theorem jumpWhen_jump (hf : Fetchable s 3) (hc : SourceReads s c x l) (hx : taken x = true)
    (ht : SourceReads s t y m) (hy : 0 ≤ y.toInt) :
    jumpWhen taken c t s =
      .next ((s.growLen (max (max (s.ip + 3) l) m)).jumpTo y.toNat) := by
  apply transact_ok hf
  simp [readParam_reads _ hc, hx, readParam_reads _ ht, addrOf_nonneg hy, bind, Except.bind, pure,
    Except.pure]

end

theorem fit64_toInt_add_zero (ov : ArithOverflow) (v : Word) :
    fit64 ov (v.toInt + (0#64 : Word).toInt) = .ok v := by
  have hzero : v.toInt + (0#64 : Word).toInt = v.toInt := by simp
  rw [hzero, fit64_of_in (inInt64_toInt v), BitVec.ofInt_toInt]

/-- An Immediate slot reads its own word. -/
theorem sourceReads_immediate (s : State) (w : Word) : SourceReads s ⟨.immediate, w⟩ w 0 :=
  .immediate rfl

theorem exec_pseudoNop {s : State} (hf : Fetchable s 3) :
    exec pseudoNop s = .next ((s.growLen (s.ip + 3)).advance 3) := by
  rw [← Nat.max_zero (s.ip + 3)]
  exact jumpWhen_fallThrough (taken := condHolds) hf (sourceReads_immediate s 0) rfl

theorem exec_pseudoMov {s : State} {p d : Param} {v : Word} {l e : Nat} (hf : Fetchable s 4)
    (hp : SourceReads s p v l) (hd : Resolves s d e) (he : e < s.cfg.memLimit) :
    exec (pseudoMov p d) s =
      .next ((s.withMem ((s.growLen (max (s.ip + 4) l)).mem.set e v)).advance 4) := by
  rw [← Nat.max_zero (max (s.ip + 4) l)]
  exact computeStore_ok (alu := fun cfg x y => fit64 cfg.arithOverflow (x.toInt + y.toInt)) hf hp
    (sourceReads_immediate s 0) (fit64_toInt_add_zero s.cfg.arithOverflow v) hd he

theorem exec_pseudoJmp {s : State} {t : Param} {v : Word} {l : Nat} (hf : Fetchable s 3)
    (ht : SourceReads s t v l) (hv : 0 ≤ v.toInt) :
    exec (pseudoJmp t) s = .next ((s.growLen (max (s.ip + 3) l)).jumpTo v.toNat) := by
  rw [← Nat.max_zero (s.ip + 3)]
  exact jumpWhen_jump (taken := condHolds) hf (sourceReads_immediate s 1) rfl ht hv

/-- Settles O25: NOP is the JT that falls through, JMP the one that jumps, MOV the ADD of 0. -/
theorem pseudoInstructionsRule : Obligations.PseudoInstructionsRule := by
  refine ⟨fun _ _ => ⟨rfl, rfl, rfl⟩, fun s => ⟨fun hf => ?_, fun p d v l e hf hp hd he => ?_,
    fun t v l hf ht hv => ?_⟩⟩
  · exact ⟨_, exec_pseudoNop hf, fun _ => rfl, rfl⟩
  · exact ⟨_, exec_pseudoMov hf hp hd he, Memory.get_set_same _ e v,
      fun a ha => Memory.get_set_other _ v ha⟩
  · exact ⟨_, exec_pseudoJmp hf ht hv, fun _ => rfl⟩

end Sys2Proof.Machine

/-! PROOF. The rules of ADD, MUL, LT and EQ (40_arith_compare.md R70 to R73), and that every
instruction completes wherever its rule lets it. The four rules are one, that of the lines the four
instructions share: an equation for each line that can fault and `computeStore_ok` for none. -/

namespace Sys2Proof.Machine

/-! The faults of the lines that ADD, MUL, LT and EQ share, in the order of 60_exceptions.md R112. -/

section

variable {alu : Config → Word → Word → Except Fault Word} {a b d : Param} {s : State}
  {x y r : Word} {l m : Nat} {f : Fault}

theorem computeStore_limit (hf : ¬ Fetchable s 4) :
    computeStore alu a b d s =
      .next (s.takeFault (.memoryExhausted (max s.ip s.cfg.memLimit))) :=
  transact_limit _ (by unfold Fetchable at hf; omega) (by omega)

theorem computeStore_first_faults (hf : Fetchable s 4) (ha : SlotFaults s a f) :
    computeStore alu a b d s = .next (s.takeFault f) := by
  apply transact_error hf
  simp [readParam_faults _ ha, bind, Except.bind]

theorem computeStore_second_faults (hf : Fetchable s 4) (ha : SourceReads s a x l)
    (hb : SlotFaults s b f) : computeStore alu a b d s = .next (s.takeFault f) := by
  apply transact_error hf
  simp [readParam_reads _ ha, readParam_faults _ hb, bind, Except.bind]

theorem computeStore_result_faults (hf : Fetchable s 4) (ha : SourceReads s a x l)
    (hb : SourceReads s b y m) (hr : alu s.cfg x y = .error f) :
    computeStore alu a b d s = .next (s.takeFault f) := by
  apply transact_error hf
  simp [readParam_reads _ ha, readParam_reads _ hb, hr, bind, Except.bind]

theorem computeStore_dest_faults (hf : Fetchable s 4) (ha : SourceReads s a x l)
    (hb : SourceReads s b y m) (hr : alu s.cfg x y = .ok r) (hd : DestFaults s 2 d f) :
    computeStore alu a b d s = .next (s.takeFault f) := by
  apply transact_error hf
  simp [readParam_reads _ ha, readParam_reads _ hb, hr, writeDest_faults _ r hd, bind, Except.bind]

end

/-! The rule of the four instructions. -/

section

variable (a b d : Param) (s : State)

theorem exec_add : exec (.add a b d) s =
    computeStore (fun cfg x y => fit64 cfg.arithOverflow (x.toInt + y.toInt)) a b d s := rfl

theorem exec_mul : exec (.mul a b d) s =
    computeStore (fun cfg x y => fit64 cfg.arithOverflow (x.toInt * y.toInt)) a b d s := rfl

theorem exec_lt : exec (.lt a b d) s =
    computeStore (fun _ x y => .ok (condWord (isLess x y))) a b d s := rfl

theorem exec_eq : exec (.eq a b d) s =
    computeStore (fun _ x y => .ok (condWord (isEqual x y))) a b d s := rfl

end

section

variable {mk : Param → Param → Param → Instr} {alu : Config → Word → Word → Except Fault Word}

/-- An instruction that runs `computeStore` obeys the rule of the words that its `alu` answers. -/
theorem storeRule_of_computeStore {code : Nat} {res : State → Word → Word → Word → Prop}
    (hwords : ∀ a b d, encode (mk a b d) =
      [BitVec.ofNat 64 (code + 100 * a.mode.digit + 1000 * b.mode.digit + 10000 * d.mode.digit),
        a.word, b.word, d.word])
    (hexec : ∀ a b d s, exec (mk a b d) s = computeStore alu a b d s)
    (hres : ∀ s x y r, res s x y r → alu s.cfg x y = .ok r) : StoreRule mk code res := by
  intro s a b d
  refine ⟨hwords a b d, fun hf => ?_, fun hf => ⟨fun f ha => ?_, fun x l ha => ⟨fun f hb => ?_,
    fun y m hb r hr => ⟨fun f hd => ?_, fun e hd he => ?_⟩⟩⟩⟩
  · exact (hexec a b d s).trans (computeStore_limit hf)
  · exact (hexec a b d s).trans (computeStore_first_faults hf ha)
  · exact (hexec a b d s).trans (computeStore_second_faults hf ha hb)
  · exact (hexec a b d s).trans (computeStore_dest_faults hf ha hb (hres s x y r hr) hd)
  · refine ⟨_, (hexec a b d s).trans (computeStore_ok hf ha hb (hres s x y r hr) hd he),
      Memory.get_set_same _ e r, fun c hc => Memory.get_set_other _ r hc, ?_⟩
    rw [State.withMem_mem, Memory.len_set, State.growLen_len]
    omega

/-- Where the `alu` answers `fit64` of an integer operation, its overflow is the fault reported once
both sources have been read. -/
theorem aluOverflowRule_of_computeStore {op : Int → Int → Int}
    (hexec : ∀ a b d s, exec (mk a b d) s = computeStore alu a b d s)
    (halu : ∀ cfg x y, alu cfg x y = fit64 cfg.arithOverflow (op x.toInt y.toInt)) :
    AluOverflowRule mk op := by
  intro s a b d x y l m hf ha hb hov hx
  have hr : alu s.cfg x y = .error .arithmeticOverflow := by rw [halu, hov, fit64_fault hx]
  exact (hexec a b d s).trans (computeStore_result_faults hf ha hb hr)

end

/-- Settles O12: ADD stores `fit64` of the sum. -/
theorem addRule : Obligations.AddRule :=
  ⟨storeRule_of_computeStore (fun _ _ _ => rfl) exec_add fun _ _ _ _ hr => hr,
    aluOverflowRule_of_computeStore exec_add fun _ _ _ => rfl⟩

/-- Settles O13: MUL stores `fit64` of the product. -/
theorem mulRule : Obligations.MulRule :=
  ⟨storeRule_of_computeStore (fun _ _ _ => rfl) exec_mul fun _ _ _ _ hr => hr,
    aluOverflowRule_of_computeStore exec_mul fun _ _ _ => rfl⟩

theorem condWord_isLess (x y : Word) :
    condWord (isLess x y) = if x.toInt < y.toInt then 1#64 else 0#64 := by
  simp [condWord, isLess]

theorem condWord_isEqual (x y : Word) :
    condWord (isEqual x y) = if x = y then 1#64 else 0#64 := by
  simp [condWord, isEqual]

/-- Settles O14: LT stores the word of the signed comparison, which cannot fault. -/
theorem ltRule : Obligations.LtRule :=
  storeRule_of_computeStore (fun _ _ _ => rfl) exec_lt
    fun _ x y _ hr => congrArg Except.ok ((condWord_isLess x y).trans hr.symm)

/-- Settles O15: EQ stores the word of the comparison for identity, which cannot fault. -/
theorem eqRule : Obligations.EqRule :=
  storeRule_of_computeStore (fun _ _ _ => rfl) exec_eq
    fun _ x y _ hr => congrArg Except.ok ((condWord_isEqual x y).trans hr.symm)

/-! The remaining bodies where every line completes. -/

section

variable {p d : Param} {s : State} {x r : Word} {l e : Nat}

theorem execInp_ok (hf : Fetchable s 2) (hd : Resolves s d e) (he : e < s.cfg.memLimit) :
    execInp d s = .next
      ((s.withMem ((s.growLen (s.ip + 2)).mem.set e (nextInput s))).consumeInput.advance 2) := by
  apply transact_ok hf
  have hinput : nextInput (s.growLen (s.ip + 2)) = nextInput s := rfl
  simp [hinput, writeDest_ok 0 _ (nextInput s) hd he, bind, Except.bind, pure, Except.pure]

theorem execOut_ok (hf : Fetchable s 2) (hp : SourceReads s p x l) :
    execOut p s = .next (((s.growLen (max (s.ip + 2) l)).advance 2).emit x) := by
  apply transact_ok hf
  simp [readParam_reads _ hp, bind, Except.bind, pure, Except.pure]

theorem execArb_ok (hf : Fetchable s 2) (hp : SourceReads s p x l)
    (hr : fit64 s.cfg.arithOverflow (s.rb.toInt + x.toInt) = .ok r) :
    execArb p s = .next (((s.growLen (max (s.ip + 2) l)).setRb r).advance 2) := by
  apply transact_ok hf
  simp [readParam_reads _ hp, hr, bind, Except.bind, pure, Except.pure]

theorem execHlt_ok (hf : Fetchable s 1) :
    execHlt s = .next (s.growLen (s.ip + 1)).halt :=
  transact_ok (body := fun t => .ok t.halt) hf rfl

end

/-! Instructions that complete. -/

/-- The outcome `Continue` (60_exceptions.md R120) from `s`: a next state with the status of `s`. -/
def Continues (s : State) (o : Host.Outcome State Fault Refusal) : Prop :=
  ∃ t, o = .next t ∧ t.st = s.st ∧ t.event = .continued

/-- The instruction completes with the status and the outcome of its own effect: `Halted` and `Halt`
for HLT, `Output` for OUT, `Continue` for every other. -/
def Completes (i : Instr) (s : State) : Prop :=
  ∃ t, exec i s = .next t ∧
    t.st = (if i = .hlt then .halted else s.st) ∧
    ((∃ v, t.event = .output v ∧ ∃ a, i = .out a) ∨
      (t.event = .halted ∧ i = .hlt) ∨
      (t.event = .continued ∧ i ≠ .hlt ∧ ∀ a, i ≠ .out a))

theorem Completes.of_continues {i : Instr} {s : State} {o : Host.Outcome State Fault Refusal}
    (hhlt : i ≠ .hlt) (hout : ∀ a, i ≠ .out a) (hexec : exec i s = o) (h : Continues s o) :
    Completes i s := by
  obtain ⟨t, rfl, hst, hevent⟩ := h
  exact ⟨t, hexec, by rw [if_neg hhlt, hst], .inr (.inr ⟨hevent, hhlt, hout⟩)⟩

theorem computeStore_continues {alu : Config → Word → Word → Except Fault Word} {a b d : Param}
    {s : State} {x y r : Word} {l m : Nat} (hf : Fetchable s 4) (ha : SourceReads s a x l)
    (hb : SourceReads s b y m) (hr : alu s.cfg x y = .ok r) (hd : DestOk s d) :
    Continues s (computeStore alu a b d s) := by
  obtain ⟨e, hd, he⟩ := hd
  exact ⟨_, computeStore_ok hf ha hb hr hd he, rfl, rfl⟩

theorem exec_jt (c t : Param) (s : State) :
    exec (.jt c t) s = jumpWhen (fun x => condHolds x) c t s := rfl

theorem exec_jf (c t : Param) (s : State) :
    exec (.jf c t) s = jumpWhen (fun x => !condHolds x) c t s := rfl

theorem jumpWhen_continues {taken : Word → Bool} {P : Word → Prop} {c t : Param} {s : State}
    (htaken : ∀ x, taken x = true → P x) (hf : Fetchable s 3) (h : JumpOk s P c t) :
    Continues s (jumpWhen taken c t s) := by
  obtain ⟨x, l, hc, htarget⟩ := h
  cases hx : taken x with
  | false => exact ⟨_, jumpWhen_fallThrough hf hc hx, rfl, rfl⟩
  | true =>
    obtain ⟨y, m, ht, hy⟩ := htarget (htaken x hx)
    exact ⟨_, jumpWhen_jump hf hc hx ht hy, rfl, rfl⟩

/-- Settles O22: under `Executable` every line of the instruction's own body completes. -/
theorem everyInstructionCompletes : Obligations.EveryInstructionCompletes := by
  intro i s h
  change Completes i s
  cases i with
  | add a b d =>
    obtain ⟨hf, ⟨x, l, y, m, ha, hb, hfits⟩, hd⟩ := h
    obtain ⟨r, hr⟩ := fits_iff.1 hfits
    exact .of_continues nofun nofun (exec_add a b d s)
      (computeStore_continues hf ha hb hr hd)
  | mul a b d =>
    obtain ⟨hf, ⟨x, l, y, m, ha, hb, hfits⟩, hd⟩ := h
    obtain ⟨r, hr⟩ := fits_iff.1 hfits
    exact .of_continues nofun nofun (exec_mul a b d s)
      (computeStore_continues hf ha hb hr hd)
  | lt a b d =>
    obtain ⟨hf, ⟨x, l, ha⟩, ⟨y, m, hb⟩, hd⟩ := h
    exact .of_continues nofun nofun (exec_lt a b d s)
      (computeStore_continues hf ha hb rfl hd)
  | eq a b d =>
    obtain ⟨hf, ⟨x, l, ha⟩, ⟨y, m, hb⟩, hd⟩ := h
    exact .of_continues nofun nofun (exec_eq a b d s)
      (computeStore_continues hf ha hb rfl hd)
  | inp d =>
    obtain ⟨hf, e, hd, he⟩ := h
    exact .of_continues nofun nofun rfl ⟨_, execInp_ok hf hd he, rfl, rfl⟩
  | out p =>
    obtain ⟨hf, v, l, hp⟩ := h
    exact ⟨_, execOut_ok hf hp, rfl, .inl ⟨v, rfl, p, rfl⟩⟩
  | jt c t =>
    obtain ⟨hf, hjump⟩ := h
    exact .of_continues nofun nofun (exec_jt c t s)
      (jumpWhen_continues (fun x hx => by simpa [condHolds] using hx) hf hjump)
  | jf c t =>
    obtain ⟨hf, hjump⟩ := h
    exact .of_continues nofun nofun (exec_jf c t s)
      (jumpWhen_continues (fun x hx => by simpa [condHolds] using hx) hf hjump)
  | arb p =>
    obtain ⟨hf, x, l, hp, hfits⟩ := h
    obtain ⟨r, hr⟩ := fits_iff.1 hfits
    exact .of_continues nofun nofun rfl ⟨_, execArb_ok hf hp hr, rfl, rfl⟩
  | hlt => exact ⟨_, execHlt_ok h.1, rfl, .inr (.inl ⟨rfl, rfl⟩)⟩

end Sys2Proof.Machine

/-! PROOF. The rules of IN and OUT (41_io.md R80, R81): an equation for each line that can fault,
beside `execInp_ok` and `execOut_ok` for none. -/

namespace Sys2Proof.Machine

section

variable {p d : Param} {s : State} {f : Fault}

theorem execInp_limit (hf : ¬ Fetchable s 2) :
    execInp d s = .next (s.takeFault (.memoryExhausted (max s.ip s.cfg.memLimit))) :=
  transact_limit _ (Nat.lt_of_not_le hf) (by omega)

theorem execInp_dest_faults (hf : Fetchable s 2) (hd : DestFaults s 0 d f) :
    execInp d s = .next (s.takeFault f) := by
  apply transact_error hf
  simp [writeDest_faults _ _ hd, bind, Except.bind]

theorem execOut_limit (hf : ¬ Fetchable s 2) :
    execOut p s = .next (s.takeFault (.memoryExhausted (max s.ip s.cfg.memLimit))) :=
  transact_limit _ (Nat.lt_of_not_le hf) (by omega)

theorem execOut_source_faults (hf : Fetchable s 2) (hp : SlotFaults s p f) :
    execOut p s = .next (s.takeFault f) := by
  apply transact_error hf
  simp [readParam_faults _ hp, bind, Except.bind]

end

theorem nextInput_eq_ite (s : State) :
    nextInput s = if s.cur = .first then s.in1 else s.in2 := by
  unfold nextInput
  cases s.cur <;> rfl

/-- Settles O16: the one write of IN stores the next input, and only past it does `cur` move. -/
theorem inRule : Obligations.InRule := by
  intro s d
  refine ⟨rfl, execInp_limit, fun hf => ⟨fun f hd => execInp_dest_faults hf hd,
    fun e hd he => ⟨_, execInp_ok hf hd he, ?_, fun c hc => Memory.get_set_other _ _ hc, ?_⟩⟩⟩
  · exact (Memory.get_set_same _ e _).trans (nextInput_eq_ite s)
  · exact Memory.len_set _ e _

/-- Settles O17: OUT only reads, so its memory is that of `s` grown by the accesses. -/
theorem outRule : Obligations.OutRule := by
  intro s p
  refine ⟨rfl, execOut_limit, fun hf => ⟨fun f hp => execOut_source_faults hf hp,
    fun v l hp => ⟨_, execOut_ok hf hp, State.growLen_get _ s, ?_⟩⟩⟩
  exact (Nat.max_assoc s.mem.len (s.ip + 2) l).symm

end Sys2Proof.Machine

/-! PROOF. The rules of JT, JF and HLT (42_control.md R90 to R92), and a Run that hangs. The two
jumps are one rule, that of the lines they share: an equation for each line that can fault, beside
`jumpWhen_fallThrough` and `jumpWhen_jump` for none. -/

namespace Sys2Proof.Machine

/-! The faults of the lines that JT and JF share, in the order of 60_exceptions.md R112. -/

section

variable {taken : Word → Bool} {c t : Param} {s : State} {x y : Word} {l m : Nat} {f : Fault}

theorem jumpWhen_limit (hf : ¬ Fetchable s 3) :
    jumpWhen taken c t s =
      .next (s.takeFault (.memoryExhausted (max s.ip s.cfg.memLimit))) :=
  transact_limit _ (Nat.lt_of_not_le hf) (by omega)

theorem jumpWhen_condition_faults (hf : Fetchable s 3) (hc : SlotFaults s c f) :
    jumpWhen taken c t s = .next (s.takeFault f) := by
  apply transact_error hf
  simp [readParam_faults _ hc, bind, Except.bind]

theorem jumpWhen_target_faults (hf : Fetchable s 3) (hc : SourceReads s c x l)
    (hx : taken x = true) (ht : SlotFaults s t f) :
    jumpWhen taken c t s = .next (s.takeFault f) := by
  apply transact_error hf
  simp [readParam_reads _ hc, hx, readParam_faults _ ht, bind, Except.bind]

theorem jumpWhen_negative (hf : Fetchable s 3) (hc : SourceReads s c x l) (hx : taken x = true)
    (ht : SourceReads s t y m) (hy : y.toInt < 0) :
    jumpWhen taken c t s = .next (s.takeFault (.negativeAddress y)) := by
  apply transact_error hf
  simp [readParam_reads _ hc, hx, readParam_reads _ ht, addrOf_negative hy, bind, Except.bind]

end

/-! The rule of the two jumps. -/

/-- An instruction that runs `jumpWhen` obeys the rule of the condition that its test decides. -/
theorem jumpRule_of_jumpWhen {mk : Param → Param → Instr} {code : Nat} {test : Word → Bool}
    {taken : Word → Prop}
    (hwords : ∀ c t, encode (mk c t) =
      [BitVec.ofNat 64 (code + 100 * c.mode.digit + 1000 * t.mode.digit), c.word, t.word])
    (hexec : ∀ c t s, exec (mk c t) s = jumpWhen test c t s)
    (htest : ∀ x, test x = true ↔ taken x) : JumpRule mk code taken := by
  intro s c t
  refine ⟨hwords c t, fun hf => ?_, fun hf => ⟨fun f hc => ?_, fun x l hc => ⟨fun hx => ?_,
    fun hx => ⟨fun f ht => ?_, fun y m ht => ⟨fun hy => ?_, fun hy => ?_⟩⟩⟩⟩⟩
  · exact (hexec c t s).trans (jumpWhen_limit hf)
  · exact (hexec c t s).trans (jumpWhen_condition_faults hf hc)
  · have hx' : test x = false := Bool.eq_false_iff.2 fun h => hx ((htest x).1 h)
    exact ⟨_, (hexec c t s).trans (jumpWhen_fallThrough hf hc hx'), State.growLen_get _ s,
      (Nat.max_assoc ..).symm⟩
  · exact (hexec c t s).trans (jumpWhen_target_faults hf hc ((htest x).2 hx) ht)
  · exact (hexec c t s).trans (jumpWhen_negative hf hc ((htest x).2 hx) ht hy)
  · refine ⟨_, (hexec c t s).trans (jumpWhen_jump hf hc ((htest x).2 hx) ht hy),
      State.growLen_get _ s, ?_⟩
    change max s.mem.len (max (max (s.ip + 3) l) m) = _
    omega

theorem condHolds_iff {x : Word} : condHolds x = true ↔ x ≠ 0#64 := decide_eq_true_iff

theorem not_condHolds_iff {x : Word} : (!condHolds x) = true ↔ x = 0#64 := by
  simp [condHolds]

/-- Settles O18: JT runs the shared lines with the test that its condition is not 0. -/
theorem jtRule : Obligations.JtRule :=
  jumpRule_of_jumpWhen (fun _ _ => rfl) exec_jt fun _ => condHolds_iff

/-- Settles O19: JF runs the shared lines with the inverted test. -/
theorem jfRule : Obligations.JfRule :=
  jumpRule_of_jumpWhen (fun _ _ => rfl) exec_jf fun _ => not_condHolds_iff

/-! HLT (42_control.md R92). -/

theorem State.growLen_of_le {l : Nat} {s : State} (h : l ≤ s.mem.len) : s.growLen l = s := by
  rw [State.growLen, Nat.max_eq_left h]
  rfl

theorem execHlt_limit {s : State} (h : s.cfg.memLimit ≤ s.ip) :
    execHlt s = .next (s.takeFault (.memoryExhausted s.ip)) := by
  rw [← Nat.max_eq_left h]
  exact transact_limit _ (by omega) (by omega)

/-- Settles O20: HLT only fetches its one word, which grows nothing at an `ip` below `len`. -/
theorem hltRule : Obligations.HltRule := by
  refine ⟨rfl, fun s => ⟨execHlt_limit, fun hf => ⟨fun hlen => ?_,
    ⟨_, execHlt_ok hf, State.growLen_get _ s, rfl⟩⟩⟩⟩
  have hhalt := execHlt_ok hf
  rwa [State.growLen_of_le hlen] at hhalt

/-! A Run that hangs (60_exceptions.md R126). -/

/-- A Run hangs where every Step leads, without an event that ends a Run, to a state with the same
property `P`. -/
theorem runHangs_of_invariant {P : State → Prop}
    (hstep : ∀ s, P s → ∃ t, step s = .next t ∧ t.event.endsRun = false ∧ P t)
    {s : State} (hs : P s) : RunHangs s := by
  intro n
  induction n generalizing s with
  | zero => rfl
  | succ n ih =>
    obtain ⟨t, hst, hevent, ht⟩ := hstep s hs
    simp [runFor, hst, hevent, ih ht]

/-- The jump with the true condition `c` to the address `a`, as `1105, c, a` spells it. -/
def jumpAlways (c : Word) (a : Nat) : Instr :=
  .jt ⟨.immediate, c⟩ ⟨.immediate, BitVec.ofNat 64 a⟩

theorem exec_jumpAlways {s : State} {c : Word} {a : Nat} (hf : Fetchable s 3) (hc : c ≠ 0#64)
    (ha : a < 2 ^ 63) :
    exec (jumpAlways c a) s = .next ((s.growLen (s.ip + 3)).jumpTo a) := by
  have haddr : (BitVec.ofNat 64 a : Word).toNat = a := Nat.mod_eq_of_lt (by omega)
  have hnonneg : 0 ≤ (BitVec.ofNat 64 a : Word).toInt := by
    rw [BitVec.toInt_eq_toNat_of_lt (by omega)]
    omega
  have hjump := jumpWhen_jump (taken := condHolds) hf (sourceReads_immediate s c)
    (condHolds_iff.2 hc) (sourceReads_immediate s _) hnonneg
  rwa [Nat.max_zero, Nat.max_zero, haddr] at hjump

/-- The Program is about to run `1105, c, ip`, a jump to its own address with a true condition. -/
structure AtSelfJump (s : State) : Prop where
  ready : s.st = .ready
  fetchable : Fetchable s 3
  word : s.mem.get s.ip = 1105#64
  condition : s.mem.get (s.ip + 1) ≠ 0#64
  ip_lt : s.ip < 2 ^ 63
  target : s.mem.get (s.ip + 2) = BitVec.ofNat 64 s.ip

theorem AtSelfJump.step_eq_exec {s : State} (h : AtSelfJump s) :
    step s = exec (jumpAlways (s.mem.get (s.ip + 1)) s.ip) s := by
  obtain ⟨hready, hf, hword, -, -, htarget⟩ := h
  refine stepRunsEncodedInstruction s _ hready (by omega) fun k hk => ?_
  match k, hk with
  | 0, _ => exact hword
  | 1, _ => rfl
  | 2, _ => exact htarget

/-- A self-jump goes on with nothing changed but `len`, so it is there again. -/
theorem AtSelfJump.step_continues {s : State} (h : AtSelfJump s) :
    ∃ t, step s = .next t ∧ t.event.endsRun = false ∧ AtSelfJump t := by
  have hstep := h.step_eq_exec
  obtain ⟨hready, hf, hword, hcond, hip, htarget⟩ := h
  exact ⟨_, hstep.trans (exec_jumpAlways hf hcond hip), rfl,
    ⟨hready, hf, hword, hcond, hip, htarget⟩⟩

/-- Settles O50: every Step of the Run is the self-jump again, and its outcome is `Continue`. -/
theorem selfJumpNeverReturns : Obligations.SelfJumpNeverReturns :=
  fun _ hready hf hword hcond hip htarget =>
    runHangs_of_invariant (fun _ => AtSelfJump.step_continues)
      ⟨hready, hf, hword, hcond, hip, htarget⟩

end Sys2Proof.Machine

/-! PROOF. The rule of ARB (43_relative_base.md R100): an equation for each line that can fault,
beside `execArb_ok` for none. -/

namespace Sys2Proof.Machine

section

variable {p : Param} {s : State} {x : Word} {l : Nat} {f : Fault}

theorem execArb_limit (hf : ¬ Fetchable s 2) :
    execArb p s = .next (s.takeFault (.memoryExhausted (max s.ip s.cfg.memLimit))) :=
  transact_limit _ (Nat.lt_of_not_le hf) (by omega)

theorem execArb_source_faults (hf : Fetchable s 2) (hp : SlotFaults s p f) :
    execArb p s = .next (s.takeFault f) := by
  apply transact_error hf
  simp [readParam_faults _ hp, bind, Except.bind]

theorem execArb_sum_faults (hf : Fetchable s 2) (hp : SourceReads s p x l)
    (hr : fit64 s.cfg.arithOverflow (s.rb.toInt + x.toInt) = .error f) :
    execArb p s = .next (s.takeFault f) := by
  apply transact_error hf
  simp [readParam_reads _ hp, hr, bind, Except.bind]

end

/-- Settles O21: ARB only reads, with the old `rb`, so its memory is that of `s` grown by the
accesses, and past the sum's overflow only `rb` and `ip` move. -/
theorem arbRule : Obligations.ArbRule := by
  intro s p
  refine ⟨rfl, execArb_limit, fun hf => ⟨fun f hp => execArb_source_faults hf hp,
    fun x l hp => ⟨fun f hr => execArb_sum_faults hf hp hr,
      fun r hr => ⟨_, execArb_ok hf hp hr, State.growLen_get _ s, ?_⟩⟩⟩⟩
  exact (Nat.max_assoc s.mem.len (s.ip + 2) l).symm

end Sys2Proof.Machine

/-! PROOF. A Step that faults (60_exceptions.md R110 to R112): an instruction outside `Executable`
takes a fault, a fault taken changes nothing but the status, and a Step by what stands at `ip`. -/

namespace Sys2Proof.Machine

/-! Instructions that do not complete. -/

section

variable {i : Instr} {s : State}

/-- The lines that ADD, MUL, LT and EQ share fault, or have all that they need. -/
theorem computeStore_takesFault_or {alu : Config → Word → Word → Except Fault Word} {a b d : Param}
    (hexec : exec i s = computeStore alu a b d s) :
    (∃ f, TakesFault i s f) ∨
      Fetchable s 4 ∧ (∃ x l y m r, SourceReads s a x l ∧ SourceReads s b y m ∧
        alu s.cfg x y = .ok r) ∧ DestOk s d := by
  rcases computeStore_cases alu a b d s with ⟨f, hf⟩ | ⟨x, l, y, m, r, e, hf, ha, hb, hr, hd, he⟩
  · exact .inl ⟨f, hexec.trans hf⟩
  · exact .inr ⟨hf, ⟨x, l, y, m, r, ha, hb, hr⟩, e, hd, he⟩

/-- The lines that JT and JF share fault, or have all that they need. -/
theorem jumpWhen_takesFault_or {test : Word → Bool} {taken : Word → Prop} {c t : Param}
    (hexec : exec i s = jumpWhen test c t s) (htest : ∀ x, test x = true ↔ taken x) :
    (∃ f, TakesFault i s f) ∨ Fetchable s 3 ∧ JumpOk s taken c t := by
  rcases jumpWhen_cases test c t s with
    ⟨f, hf⟩ | ⟨x, l, hf, hc, hx, -⟩ | ⟨x, l, y, m, hf, hc, -, ht, hy, -⟩
  · exact .inl ⟨f, hexec.trans hf⟩
  · exact .inr ⟨hf, x, l, hc, fun htaken => absurd ((htest x).2 htaken) (by simp [hx])⟩
  · exact .inr ⟨hf, x, l, hc, fun _ => ⟨y, m, ht, hy⟩⟩

end

/-- Every instruction takes a fault or meets the conditions of its rule: what a line of it needs
holds, or the line faults. -/
theorem takesFault_or_executable (i : Instr) (s : State) :
    (∃ f, TakesFault i s f) ∨ Executable i s := by
  cases i with
  | add a b d =>
    refine (computeStore_takesFault_or (exec_add a b d s)).imp_right ?_
    rintro ⟨hf, ⟨x, l, y, m, r, ha, hb, hr⟩, hd⟩
    exact ⟨hf, ⟨x, l, y, m, ha, hb, fits_iff.2 ⟨r, hr⟩⟩, hd⟩
  | mul a b d =>
    refine (computeStore_takesFault_or (exec_mul a b d s)).imp_right ?_
    rintro ⟨hf, ⟨x, l, y, m, r, ha, hb, hr⟩, hd⟩
    exact ⟨hf, ⟨x, l, y, m, ha, hb, fits_iff.2 ⟨r, hr⟩⟩, hd⟩
  | lt a b d =>
    refine (computeStore_takesFault_or (exec_lt a b d s)).imp_right ?_
    rintro ⟨hf, ⟨x, l, y, m, -, ha, hb, -⟩, hd⟩
    exact ⟨hf, ⟨x, l, ha⟩, ⟨y, m, hb⟩, hd⟩
  | eq a b d =>
    refine (computeStore_takesFault_or (exec_eq a b d s)).imp_right ?_
    rintro ⟨hf, ⟨x, l, y, m, -, ha, hb, -⟩, hd⟩
    exact ⟨hf, ⟨x, l, ha⟩, ⟨y, m, hb⟩, hd⟩
  | jt c t => exact jumpWhen_takesFault_or (exec_jt c t s) fun _ => condHolds_iff
  | jf c t => exact jumpWhen_takesFault_or (exec_jf c t s) fun _ => not_condHolds_iff
  | inp d =>
    by_cases hf : Fetchable s 2
    · rcases dest_cases s 0 d with hd | ⟨f, hd⟩
      · exact .inr ⟨hf, hd⟩
      · exact .inl ⟨f, execInp_dest_faults hf hd⟩
    · exact .inl ⟨_, execInp_limit hf⟩
  | out p =>
    by_cases hf : Fetchable s 2
    · rcases source_cases s p with hp | ⟨f, hp⟩
      · exact .inr ⟨hf, hp⟩
      · exact .inl ⟨f, execOut_source_faults hf hp⟩
    · exact .inl ⟨_, execOut_limit hf⟩
  | arb p =>
    by_cases hf : Fetchable s 2
    · rcases source_cases s p with ⟨x, l, hp⟩ | ⟨f, hp⟩
      · cases hr : fit64 s.cfg.arithOverflow (s.rb.toInt + x.toInt) with
        | ok r => exact .inr ⟨hf, x, l, hp, fits_iff.2 ⟨r, hr⟩⟩
        | error f => exact .inl ⟨f, execArb_sum_faults hf hp hr⟩
      · exact .inl ⟨f, execArb_source_faults hf hp⟩
    · exact .inl ⟨_, execArb_limit hf⟩
  | hlt =>
    by_cases hf : Fetchable s 1
    · exact .inr ⟨hf, trivial⟩
    · exact .inl ⟨_, execHlt_limit (by omega)⟩

/-- Settles O23: an instruction that takes no fault is executable. -/
theorem notExecutableTakesFault : Obligations.NotExecutableTakesFault :=
  fun i s h => (takesFault_or_executable i s).resolve_right h

/-! A Step that ends `Faulted`. -/

/-- A `Ready` Program becomes `Faulted` only by taking a fault, for what an instruction commits is
none. -/
theorem eq_takeFault_of_step {s t : State} {r : FaultRecord} (hready : s.st = .ready)
    (h : step s = .next t) (hst : t.st = .faulted r) : ∃ f, t = s.takeFault f := by
  have htrans : Transacts s (.next t) := h ▸ step_transacts hready
  cases htrans with
  | fault f => exact ⟨f, rfl⟩
  | commit _ hc =>
    rcases hc.st_cases with hkept | hhalted
    · cases hst.symm.trans (hkept.trans hready)
    · cases hst.symm.trans hhalted

/-- Settles O35: the Step takes its fault from the state before the instruction's fetch. -/
theorem faultIsAtomicAndPrecise : Obligations.FaultIsAtomicAndPrecise := by
  intro s t r hready h hst
  obtain ⟨f, rfl⟩ := eq_takeFault_of_step hready h hst
  cases hst
  exact ⟨rfl, rfl⟩

/-! A Step by the status and by what is fetched at `ip`. -/

section

variable {s : State}

theorem step_eq_exec {i : Instr} (hready : s.st = .ready) (hf : fetchInstr s = .ok i) :
    step s = exec i s := by
  simp [step, beginStep, hready, hf]

theorem step_eq_takeFault {f : Fault} (hready : s.st = .ready) (hf : fetchInstr s = .error f) :
    step s = .next (s.takeFault f) := by
  simp [step, beginStep, hready, hf]

theorem step_of_halted (hst : s.st = .halted) :
    step s = .next (s.markRefused .runAfterHalt) := by
  simp [step, beginStep, hst]

theorem step_of_faulted {r : FaultRecord} (hst : s.st = .faulted r) :
    step s = .next (s.markRefused .runAfterFault) := by
  simp [step, beginStep, hst]

theorem fetchInstr_limit (h : s.cfg.memLimit ≤ s.ip) :
    fetchInstr s = .error (.memoryExhausted s.ip) := by
  rw [fetchInstr, memRead_limit h]

theorem fetchInstr_decoded {d : Decoded} (h : s.ip < s.cfg.memLimit)
    (hd : decodeWord s.cfg.surplusDigits (s.mem.get s.ip) = .ok d) :
    fetchInstr s = .ok (d.build fun k => s.mem.get (s.ip + 1 + k)) := by
  simp [fetchInstr, memRead_ok h, hd]

theorem fetchInstr_undecodable {e : DecodeFault} (h : s.ip < s.cfg.memLimit)
    (he : decodeWord s.cfg.surplusDigits (s.mem.get s.ip) = .error e) :
    fetchInstr s = .error (Fault.ofDecode e) := by
  simp [fetchInstr, memRead_ok h, he]

end

/-- Settles O32: the fetch answers the decoded instruction, which the Step executes. -/
theorem stepRunsDecodedInstruction : Obligations.StepRunsDecodedInstruction :=
  fun _ _ hready hip hd => step_eq_exec hready (fetchInstr_decoded hip hd)

/-- Settles O34: the Step takes the fault that the fetch answers. -/
theorem fetchAndDecodeFaults : Obligations.FetchAndDecodeFaults :=
  fun _ hready =>
    ⟨fun hlim => step_eq_takeFault hready (fetchInstr_limit hlim),
      fun hip _ he => step_eq_takeFault hready (fetchInstr_undecodable hip he)⟩

/-- Settles O37, by the table of codes. -/
theorem faultCodes : Obligations.FaultCodes :=
  fun _ _ _ _ _ => ⟨rfl, rfl, rfl, rfl, rfl, rfl, rfl⟩

end Sys2Proof.Machine

/-! PROOF. The host's commands (60_exceptions.md R120 to R124, R134): a Run by its Steps, the
refused mark, and that a Step does not depend on the outcome of the Step before it. -/

namespace Sys2Proof.Machine

/-! Outcomes of a Step. -/

theorem step_next (s : State) : ∃ t, step s = .next t := by
  by_cases hready : s.st = .ready
  · cases hstep : step s with
    | next t => exact ⟨t, rfl⟩
    | _ => exact absurd (hstep ▸ step_transacts hready) nofun
  · obtain ⟨r, hr⟩ := step_terminal hready
    exact ⟨_, hr⟩

/-- Every Step hands an outcome to the host. -/
theorem step_event_ne_none {s t : State} (h : step s = .next t) : t.event ≠ .none := by
  by_cases hready : s.st = .ready
  · rcases (statusTransitions s t h).2 hready with
      ⟨-, he | ⟨v, he⟩⟩ | ⟨-, he, -⟩ | ⟨r, -, he⟩ <;> simp [he]
  · obtain ⟨r, hr⟩ := step_terminal hready
    obtain rfl : t = s.markRefused r := by simpa [h] using hr
    nofun

/-- Every outcome but `Continue` ends a Run. -/
theorem endsRun_iff {e : Event} (h : e ≠ .none) : e.endsRun = true ↔ e ≠ .continued := by
  cases e <;> simp_all [Event.endsRun]

theorem step_refused_eq {s t : State} (hready : s.st = .ready) (h : step s = .next t) :
    t.refused = s.refused := by
  simpa [hready] using refusedMarkRule s t h

theorem step_event_ne_refused {s t : State} (hready : s.st = .ready) (h : step s = .next t)
    (r : Refusal) : t.event ≠ .refused r := by
  rcases (statusTransitions s t h).2 hready with
    ⟨-, he | ⟨v, he⟩⟩ | ⟨-, he, -⟩ | ⟨r, -, he⟩ <;> simp [he]

/-! A Run by its Steps. -/

theorem runFor_succ {s u : State} (h : step s = .next u) (n : Nat) :
    runFor (n + 1) s = if u.event.endsRun then some u else runFor n u := by
  simp [runFor, h]

/-- A Run returns after a Step whose outcome ends it, and else as the Run from the next state. -/
theorem runReturns_iff {s u : State} (h : step s = .next u) (t : State) :
    RunReturns s t ↔ if u.event.endsRun then t = u else RunReturns u t := by
  have hsucc : RunReturns s t ↔ ∃ n, runFor (n + 1) s = some t := by
    refine ⟨?_, fun ⟨n, hn⟩ => ⟨n + 1, hn⟩⟩
    rintro ⟨_ | n, hn⟩
    · cases hn
    · exact ⟨n, hn⟩
  simp only [hsucc, runFor_succ h]
  split
  · simp [eq_comm]
  · rfl

/-- Settles O48: of the outcomes that a Step has, only `Continue` lets the Run go on. -/
theorem runStepsUntilEvent : Obligations.RunStepsUntilEvent := by
  intro s u t h
  rw [runReturns_iff h t]
  refine ⟨fun hc => ?_, fun hne => ?_⟩
  · simp [hc, Event.endsRun]
  · rw [if_pos ((endsRun_iff (step_event_ne_none h)).2 hne)]

/-- A Run on a terminal Program is its one refused Step. -/
theorem runReturns_refused {s : State} {r : Refusal} (h : step s = .next (s.markRefused r))
    (t : State) : RunReturns s t ↔ t = s.markRefused r :=
  (runStepsUntilEvent s _ t h).2 nofun

/-- Settles O38: the Step on a terminal Program sets the mark, and its outcome ends the Run. -/
theorem terminalStepIsRefused : Obligations.TerminalStepIsRefused :=
  fun _ =>
    ⟨fun hst => ⟨step_of_halted hst, runReturns_refused (step_of_halted hst)⟩,
      fun _ hst => ⟨step_of_faulted hst, runReturns_refused (step_of_faulted hst)⟩⟩

/-- The Run from a `Ready` Program ends with a Step from a `Ready` Program, and the Steps before it
have left the refused mark as it was. -/
theorem RunReturns.last_step {s t : State} (hready : s.st = .ready) (h : RunReturns s t) :
    ∃ u, u.st = .ready ∧ u.refused = s.refused ∧ step u = .next t ∧ t.event ≠ .continued := by
  obtain ⟨n, hn⟩ := h
  induction n generalizing s with
  | zero => cases hn
  | succ n ih =>
    obtain ⟨u, hu⟩ := step_next s
    rw [runFor_succ hu] at hn
    have hends := endsRun_iff (step_event_ne_none hu)
    split at hn
    next hend =>
      cases hn
      exact ⟨s, hready, rfl, hu, hends.1 hend⟩
    next hgo =>
      have hcont : u.event = .continued := not_not.1 (mt hends.2 hgo)
      have hu_ready : u.st = .ready := by
        rcases (statusTransitions s u hu).2 hready with ⟨hst, -⟩ | ⟨-, he, -⟩ | ⟨r, -, he⟩
        · exact hst
        · cases hcont.symm.trans he
        · cases hcont.symm.trans he
      obtain ⟨w, hw, href, hstep⟩ := ih hu_ready hn
      exact ⟨w, hw, href.trans (step_refused_eq hready hu), hstep⟩

/-- Settles O47: the last Step of the Run leaves the status that belongs to its outcome. -/
theorem runReturnsAtEvent : Obligations.RunReturnsAtEvent := by
  intro s t hready h
  obtain ⟨u, hu, -, hstep, hne⟩ := h.last_step hready
  rcases (statusTransitions u t hstep).2 hu with
    ⟨hst, he | ⟨v, he⟩⟩ | ⟨hst, he, -⟩ | ⟨r, hst, he⟩
  · exact absurd he hne
  · exact .inl ⟨v, he, hst⟩
  · exact .inr (.inl ⟨he, hst⟩)
  · exact .inr (.inr ⟨r, he, hst⟩)

/-! The other commands, and the host's duty. -/

/-- Settles O45, by the meaning of the command. -/
theorem setInputRule : Obligations.SetInputRule := fun _ _ => rfl

/-- Settles O49: only a Step on a terminal Program refuses, and none is made. -/
theorem dutifulHostIsNeverRefused : Obligations.DutifulHostIsNeverRefused := by
  refine ⟨fun c s t hallowed h => ?_, fun s t hready h => ?_⟩
  · cases c with
    | step =>
      exact ⟨step_refused_eq hallowed h,
        fun r he => absurd he (step_event_ne_refused hallowed h r)⟩
    | setInput v =>
      cases h
      exact ⟨rfl, fun _ he => he⟩
    | snapshot =>
      cases h
      exact ⟨rfl, fun _ he => he⟩
  · obtain ⟨u, hu, href, hstep, -⟩ := h.last_step hready
    exact ⟨(step_refused_eq hu hstep).trans href, step_event_ne_refused hu hstep⟩

/-! The recorded outcome has no influence. -/

/-- `s` with another outcome recorded as that of the last Step. -/
def State.withEvent (e : Event) (s : State) : State := { s with event := e }

/-- A Snapshot and the parameters determine the state but for the recorded outcome. -/
theorem State.eq_withEvent {s t : State} (h : s.snapshot = t.snapshot) (hcfg : s.cfg = t.cfg) :
    t = s.withEvent t.event := by
  cases s
  cases t
  simp only [State.snapshot, Snapshot.mk.injEq] at h
  obtain ⟨rfl, rfl, rfl, rfl, rfl, rfl, rfl, rfl⟩ := h
  cases hcfg
  rfl

/-- A sequence whose first line's result changes by `g` answers the same where the rest does not see
`g`. -/
theorem bind_eq_of_map {α β : Type} {x x' : Except Fault α} {g : α → α} {k : α → Except Fault β}
    (hx : x' = x.map g) (hk : ∀ a, k (g a) = k a) : (x' >>= k) = (x >>= k) := by
  subst hx
  cases x with
  | ok a => exact hk a
  | error f => rfl

section

variable (e : Event) (s : State)

theorem memRead_withEvent (a : Nat) :
    memRead a (s.withEvent e) = (memRead a s).map (Prod.map id (State.withEvent e)) := by
  by_cases h : a < s.cfg.memLimit
  · rw [memRead_ok h, memRead_ok (s := s.withEvent e) h]
    rfl
  · rw [memRead_limit (s := s) (Nat.le_of_not_lt h),
      memRead_limit (s := s.withEvent e) (Nat.le_of_not_lt h)]
    rfl

theorem readAt_withEvent (a : Except Fault Nat) :
    readAt a (s.withEvent e) = (readAt a s).map (Prod.map id (State.withEvent e)) :=
  match a with
  | .ok n => memRead_withEvent e s n
  | .error _ => rfl

theorem readParam_withEvent (p : Param) :
    readParam p (s.withEvent e) = (readParam p s).map (Prod.map id (State.withEvent e)) := by
  obtain ⟨m, w⟩ := p
  cases m with
  | position => exact readAt_withEvent e s (addrOf w)
  | immediate => rfl
  | relative => exact readAt_withEvent e s (relativeAddr w s)

theorem memWrite_withEvent (a : Nat) (v : Word) :
    memWrite a v (s.withEvent e) = (memWrite a v s).map (State.withEvent e) := by
  by_cases h : a < s.cfg.memLimit
  · rw [memWrite_ok v h, memWrite_ok (s := s.withEvent e) v h]
    rfl
  · rw [memWrite_limit (s := s) v (Nat.le_of_not_lt h),
      memWrite_limit (s := s.withEvent e) v (Nat.le_of_not_lt h)]
    rfl

theorem writeDest_withEvent (k : Nat) (p : Param) (v : Word) :
    writeDest k p v (s.withEvent e) = (writeDest k p v s).map (State.withEvent e) := by
  have hdest : destAddr k p (s.withEvent e) = destAddr k p s := rfl
  simp only [writeDest, hdest]
  cases destAddr k p s with
  | ok a => exact memWrite_withEvent e s a v
  | error f => rfl

/-- A transaction does not see the recorded outcome where its lines do not. -/
theorem transact_withEvent {n : Nat} {body : State → Except Fault State}
    (hbody : ∀ t : State, body (t.withEvent e) = body t) :
    transact (n + 1) body (s.withEvent e) = transact (n + 1) body s := by
  by_cases hf : Fetchable s (n + 1)
  · have hcopy := hbody (s.growLen (s.ip + (n + 1)))
    cases hb : body (s.growLen (s.ip + (n + 1))) with
    | ok t => rw [transact_ok hf hb, transact_ok (s := s.withEvent e) hf (hcopy.trans hb)]
    | error f =>
      rw [transact_error hf hb, transact_error (s := s.withEvent e) hf (hcopy.trans hb)]
      rfl
  · rw [transact_limit (s := s) body (Nat.lt_of_not_le hf) (by omega),
      transact_limit (s := s.withEvent e) body (Nat.lt_of_not_le hf) (by omega)]
    rfl

theorem computeStore_withEvent (alu : Config → Word → Word → Except Fault Word) (a b d : Param) :
    computeStore alu a b d (s.withEvent e) = computeStore alu a b d s :=
  transact_withEvent e s fun t =>
    bind_eq_of_map (readParam_withEvent e t a) fun x =>
    bind_eq_of_map (readParam_withEvent e x.2 b) fun y =>
    congrArg (alu s.cfg x.1 y.1 >>= ·) <| funext fun r =>
    bind_eq_of_map (writeDest_withEvent e y.2 2 d r) fun _ => rfl

theorem jumpWhen_withEvent (taken : Word → Bool) (c p : Param) :
    jumpWhen taken c p (s.withEvent e) = jumpWhen taken c p s :=
  transact_withEvent e s fun t =>
    bind_eq_of_map (readParam_withEvent e t c) fun x => by
      dsimp only [Prod.map_fst, Prod.map_snd, id]
      by_cases hx : taken x.1 = true
      · rw [if_pos hx, if_pos hx]
        exact bind_eq_of_map (readParam_withEvent e x.2 p) fun _ => rfl
      · rw [if_neg hx, if_neg hx]
        rfl

theorem execInp_withEvent (d : Param) : execInp d (s.withEvent e) = execInp d s :=
  transact_withEvent e s fun t =>
    bind_eq_of_map (writeDest_withEvent e t 0 d (nextInput t)) fun _ => rfl

theorem execOut_withEvent (p : Param) : execOut p (s.withEvent e) = execOut p s :=
  transact_withEvent e s fun t => bind_eq_of_map (readParam_withEvent e t p) fun _ => rfl

theorem execArb_withEvent (p : Param) : execArb p (s.withEvent e) = execArb p s :=
  transact_withEvent e s fun t => bind_eq_of_map (readParam_withEvent e t p) fun _ => rfl

theorem execHlt_withEvent : execHlt (s.withEvent e) = execHlt s :=
  transact_withEvent e s fun _ => rfl

/-- No instruction sees the recorded outcome. -/
theorem exec_withEvent (i : Instr) : exec i (s.withEvent e) = exec i s := by
  cases i with
  | add a b d => simp only [exec_add, computeStore_withEvent]
  | mul a b d => simp only [exec_mul, computeStore_withEvent]
  | lt a b d => simp only [exec_lt, computeStore_withEvent]
  | eq a b d => simp only [exec_eq, computeStore_withEvent]
  | inp d => exact execInp_withEvent e s d
  | out p => exact execOut_withEvent e s p
  | jt c t => simp only [exec_jt, jumpWhen_withEvent]
  | jf c t => simp only [exec_jf, jumpWhen_withEvent]
  | arb p => exact execArb_withEvent e s p
  | hlt => exact execHlt_withEvent e s

theorem fetchInstr_withEvent : fetchInstr (s.withEvent e) = fetchInstr s := by
  unfold fetchInstr
  rw [show (s.withEvent e).ip = s.ip from rfl, memRead_withEvent]
  cases memRead s.ip s <;> rfl

theorem step_withEvent : step (s.withEvent e) = step s := by
  cases hst : s.st with
  | ready =>
    cases hf : fetchInstr s with
    | ok i =>
      have hf' := (fetchInstr_withEvent e s).trans hf
      rw [step_eq_exec hst hf, step_eq_exec (s := s.withEvent e) hst hf', exec_withEvent]
    | error f =>
      have hf' := (fetchInstr_withEvent e s).trans hf
      rw [step_eq_takeFault hst hf, step_eq_takeFault (s := s.withEvent e) hst hf']
      rfl
  | halted =>
    rw [step_of_halted hst, step_of_halted (s := s.withEvent e) hst]
    rfl
  | faulted r =>
    rw [step_of_faulted hst, step_of_faulted (s := s.withEvent e) hst]
    rfl

end

/-- Settles O46: the two states differ at most in the recorded outcome, which no Step reads. -/
theorem snapshotDeterminesStep : Obligations.SnapshotDeterminesStep := by
  intro s t h hcfg
  rw [State.eq_withEvent h hcfg, step_withEvent]

end Sys2Proof.Machine

/-! PROOF. The amplifier-network host (60_exceptions.md R129 to R133): one round of a trial by what
the active amplifier's Run returns, the amplifiers of a trial, and the search as a maximum. -/

namespace Sys2Proof.Machine

/-! One round (60_exceptions.md R131). -/

section

variable {fuel : Nat} {t : Trial} {s a : State}

theorem round_of_output {v : Word} (hs : t.amps[t.active]? = some s)
    (hrun : runFor fuel (s.setInput t.signal) = some a) (he : a.event = .output v) :
    t.round fuel = .more (t.passOn a v) := by
  simp [Trial.round, hs, hrun, he]

theorem round_of_halted (hs : t.amps[t.active]? = some s)
    (hrun : runFor fuel (s.setInput t.signal) = some a) (he : a.event = .halted) :
    t.round fuel = .ended { t with amps := t.amps.set t.active a } := by
  simp [Trial.round, hs, hrun, he]

theorem round_of_faulted {r : FaultRecord} (hs : t.amps[t.active]? = some s)
    (hrun : runFor fuel (s.setInput t.signal) = some a) (he : a.event = .faulted r) :
    t.round fuel = .aborted { t with amps := t.amps.set t.active a } r := by
  simp [Trial.round, hs, hrun, he]

theorem round_of_unfinished (hs : t.amps[t.active]? = some s)
    (hrun : runFor fuel (s.setInput t.signal) = none) : t.round fuel = .unfinished := by
  simp [Trial.round, hs, hrun]

/-- A round goes on only by passing an output on. -/
theorem eq_passOn_of_round_more {u : Trial} (h : t.round fuel = .more u) :
    ∃ a v, u = t.passOn a v := by
  unfold Trial.round at h
  split at h
  · cases h
  · split at h
    · cases h
    · split at h <;> cases h
      exact ⟨_, _, rfl⟩

end

/-- Settles O51: passing an output on replaces only the active amplifier. -/
theorem roundLeavesOtherAmplifiers : Obligations.RoundLeavesOtherAmplifiers := by
  intro fuel t u h j hj
  obtain ⟨a, v, rfl⟩ := eq_passOn_of_round_more h
  exact List.getElem?_set_ne (Ne.symm hj)

/-- Settles O52, by the three outcomes of the Run. -/
theorem trialRoundRule : Obligations.TrialRoundRule :=
  fun _ _ _ _ hs hrun =>
    ⟨fun _ => round_of_output hs hrun, round_of_halted hs hrun, fun _ => round_of_faulted hs hrun⟩

/-! A trial of `Ready` amplifiers. -/

/-- The round of such a trial ends in one of the ways that R131 names, or its Run does not return;
a Run that handed out an output left its amplifier `Ready`. -/
theorem TrialReady.round_cases {t : Trial} (h : TrialReady t) (fuel : Nat) :
    (∃ a v, a.st = .ready ∧ t.round fuel = .more (t.passOn a v)) ∨
      (∃ u, t.round fuel = .ended u) ∨ (∃ u r, t.round fuel = .aborted u r) ∨
      t.round fuel = .unfinished := by
  obtain ⟨hactive, hready⟩ := h
  have hs := List.getElem?_eq_getElem hactive
  have hst : (t.amps[t.active].setInput t.signal).st = .ready :=
    hready t.amps[t.active] (List.getElem_mem hactive)
  cases hrun : runFor fuel (t.amps[t.active].setInput t.signal) with
  | none => exact .inr (.inr (.inr (round_of_unfinished hs hrun)))
  | some a =>
    rcases runReturnsAtEvent _ a hst ⟨fuel, hrun⟩ with ⟨v, he, ha⟩ | ⟨he, -⟩ | ⟨r, he, -⟩
    · exact .inl ⟨a, v, ha, round_of_output hs hrun he⟩
    · exact .inr (.inl ⟨_, round_of_halted hs hrun he⟩)
    · exact .inr (.inr (.inl ⟨_, r, round_of_faulted hs hrun he⟩))

theorem TrialReady.passOn {t : Trial} {a : State} (v : Word) (h : TrialReady t)
    (ha : a.st = .ready) : TrialReady (t.passOn a v) := by
  obtain ⟨hactive, hready⟩ := h
  constructor
  · have hpos : 0 < t.amps.length := by omega
    simpa [Trial.passOn] using Nat.mod_lt _ hpos
  · intro b hb
    rcases List.mem_or_eq_of_mem_set hb with hmem | rfl
    · exact hready b hmem
    · exact ha

theorem TrialReady.round_ne_breach {t : Trial} (h : TrialReady t) (fuel : Nat) :
    t.round fuel ≠ .breach := by
  rcases h.round_cases fuel with ⟨a, v, -, hr⟩ | ⟨u, hr⟩ | ⟨u, r, hr⟩ | hr <;> simp [hr]

theorem TrialReady.of_round_more {t u : Trial} {fuel : Nat} (h : TrialReady t)
    (hmore : t.round fuel = .more u) : TrialReady u := by
  rcases h.round_cases fuel with ⟨a, v, ha, hr⟩ | ⟨w, hr⟩ | ⟨w, r, hr⟩ | hr
  · cases hmore.symm.trans hr
    exact h.passOn v ha
  all_goals cases hmore.symm.trans hr

/-! The loop of a trial (60_exceptions.md R131, R132). -/

section

variable {fuel : Nat} {t u : Trial} (n : Nat)

theorem loop_of_more (h : t.round fuel = .more u) :
    t.loop fuel (n + 1) = u.loop fuel n := by
  simp [Trial.loop, h]

theorem loop_of_ended (h : t.round fuel = .ended u) :
    t.loop fuel (n + 1) = u.last.elim .noOutput .value := by
  cases hlast : u.last <;> simp [Trial.loop, h, hlast]

theorem loop_of_aborted {r : FaultRecord} (h : t.round fuel = .aborted u r) :
    t.loop fuel (n + 1) = .failed r := by
  simp [Trial.loop, h]

theorem loop_of_unfinished (h : t.round fuel = .unfinished) :
    t.loop fuel (n + 1) = .unfinished := by
  simp [Trial.loop, h]

end

theorem TrialReady.loop_ne_breach {t : Trial} (h : TrialReady t) (fuel n : Nat) :
    t.loop fuel n ≠ .breach := by
  induction n generalizing t with
  | zero => nofun
  | succ n ih =>
    rcases h.round_cases fuel with ⟨a, v, ha, hr⟩ | ⟨u, hr⟩ | ⟨u, r, hr⟩ | hr
    · rw [loop_of_more n hr]
      exact ih (h.passOn v ha)
    · rw [loop_of_ended n hr]
      cases u.last <;> nofun
    · rw [loop_of_aborted n hr]
      nofun
    · rw [loop_of_unfinished n hr]
      nofun

/-- Settles O53: a round passes on only to amplifiers that are still `Ready`. -/
theorem trialNeverRefused : Obligations.TrialNeverRefused :=
  fun fuel _ h =>
    ⟨h.round_ne_breach fuel, fun _ hmore => h.of_round_more hmore, h.loop_ne_breach fuel⟩

/-- Settles O54, by how the loop goes on after each kind of round. -/
theorem trialResultRule : Obligations.TrialResultRule := by
  refine ⟨fun cfg net fuel rounds image π amps h => ⟨?_, rfl, rfl, rfl, rfl⟩,
    fun fuel n t u => ⟨fun h v hv => ?_, fun h hnone => ?_, fun r => loop_of_aborted n,
      loop_of_more n⟩⟩
  · rw [trial, h]
  · rw [loop_of_ended n h, hv, Option.elim]
  · rw [loop_of_ended n h, hnone, Option.elim]

/-! The amplifiers of a trial (60_exceptions.md R130). -/

/-- Where the image fits and the phase setting is an int64, the amplifier is `New` with that
word. -/
theorem newAmp_eq_newProgram {cfg : Config} {bias : Int} {image : List Word} {p : Nat}
    (himage : image.length ≤ cfg.memLimit) (hp : InInt64 (bias + p)) :
    ∃ a, newAmp cfg bias image p = some a ∧
      ∃ w : Word, w.toInt = bias + p ∧ some a = newProgram cfg image w 0 := by
  have hamp : newAmp cfg bias image p = newProgram cfg image (BitVec.ofInt 64 (bias + p)) 0 := by
    rw [newAmp, phaseWord, if_pos hp]
  obtain ⟨a, ha⟩ : ∃ a, newProgram cfg image (BitVec.ofInt 64 (bias + p)) 0 = some a :=
    ⟨_, if_pos himage⟩
  exact ⟨a, hamp.trans ha, _, toInt_ofInt_of_in hp, ha.symm⟩

theorem newAmps_cons {cfg : Config} {bias : Int} {image : List Word} {p : Nat} {ps : List Nat}
    {a : State} {as : List State} (ha : newAmp cfg bias image p = some a)
    (has : newAmps cfg bias image ps = some as) :
    newAmps cfg bias image (p :: ps) = some (a :: as) := by
  simp [newAmps, ha, has]

/-- Settles O55, by induction on the permutation. -/
theorem amplifierConstructionRule : Obligations.AmplifierConstructionRule := by
  intro cfg bias image π himage hfits
  induction π with
  | nil => exact ⟨[], rfl, rfl, nofun⟩
  | cons p ps ih =>
    obtain ⟨hp, hps⟩ := List.forall_mem_cons.1 hfits
    obtain ⟨a, ha, hnew⟩ := newAmp_eq_newProgram himage hp
    obtain ⟨as, has, hlen, hget⟩ := ih hps
    refine ⟨a :: as, newAmps_cons ha has, congrArg (· + 1) hlen, fun j q hq => ?_⟩
    match j with
    | 0 =>
      cases hq
      exact hnew
    | j + 1 => exact hget j q hq

/-! The search (60_exceptions.md R133). -/

theorem maxWord_eq_or (a b : Word) : maxWord a b = a ∨ maxWord a b = b := by
  unfold maxWord
  split
  · exact .inr rfl
  · exact .inl rfl

theorem toInt_maxWord (a b : Word) : (maxWord a b).toInt = max a.toInt b.toInt := by
  unfold maxWord
  split <;> omega

/-- `v` is the greatest of the results, and each of them is a value. -/
def IsGreatestResult (v : Word) (rs : List TrialResult) : Prop :=
  (∀ r ∈ rs, ∃ w, ResultIs r w ∧ w.toInt ≤ v.toInt) ∧ ∃ r ∈ rs, ResultIs r v

theorem isGreatestResult_singleton {v : Word} {r : TrialResult} :
    IsGreatestResult v [r] ↔ ResultIs r v := by
  simp only [IsGreatestResult, List.mem_singleton, forall_eq, exists_eq_left]
  exact and_iff_right_of_imp fun h => ⟨v, h, le_rfl⟩

theorem IsGreatestResult.exists_value {v : Word} {rs : List TrialResult} {r : TrialResult}
    (h : IsGreatestResult v rs) (hr : r ∈ rs) : ∃ w, r = .value w :=
  (h.1 r hr).imp fun _ => And.left

/-- Of two words that are at most `v`, one is `v` exactly when the greater is. -/
theorem maxWord_eq_iff {v a b : Word} (ha : a.toInt ≤ v.toInt) (hb : b.toInt ≤ v.toInt) :
    maxWord a b = v ↔ a = v ∨ b = v := by
  constructor
  · rintro rfl
    exact (maxWord_eq_or a b).imp Eq.symm Eq.symm
  · intro h
    apply BitVec.eq_of_toInt_eq
    rw [toInt_maxWord]
    rcases h with rfl | rfl
    · exact max_eq_left hb
    · exact max_eq_right ha

/-- Two values count as the greater of them. -/
theorem isGreatestResult_maxWord {v a b : Word} {rs : List TrialResult} :
    IsGreatestResult v (.value (maxWord a b) :: rs) ↔
      IsGreatestResult v (.value a :: .value b :: rs) := by
  simp only [IsGreatestResult, ResultIs, List.forall_mem_cons, List.exists_mem_cons_iff,
    TrialResult.value.injEq, exists_eq_left', toInt_maxWord, max_le_iff, and_assoc]
  refine and_congr_right fun ha => and_congr_right fun hb => and_congr_right fun _ => ?_
  rw [maxWord_eq_iff ha hb, or_assoc]

theorem bestOf_of_not_value {r r' : TrialResult} (rs : List TrialResult)
    (h : ∀ a, r ≠ .value a) : bestOf r (r' :: rs) = r := by
  cases r with
  | value a => exact absurd rfl (h a)
  | _ => simp [bestOf]

theorem bestOf_value_of_not_value {r : TrialResult} (a : Word) (rs : List TrialResult)
    (h : ∀ b, r ≠ .value b) : bestOf (.value a) (r :: rs) = r := by
  cases r with
  | value b => exact absurd rfl (h b)
  | _ => rfl

/-- The best of some results is a value exactly when it is the greatest of them all. -/
theorem bestOf_eq_value_iff {v : Word} {r : TrialResult} {rs : List TrialResult} :
    bestOf r rs = .value v ↔ IsGreatestResult v (r :: rs) := by
  induction rs generalizing r with
  | nil => exact isGreatestResult_singleton.symm
  | cons r' rs ih =>
    by_cases hr : ∃ a, r = .value a
    swap
    · rw [bestOf_of_not_value rs (not_exists.1 hr)]
      exact ⟨fun h => absurd ⟨v, h⟩ hr, fun h => absurd (h.exists_value (by simp)) hr⟩
    obtain ⟨a, rfl⟩ := hr
    by_cases hr' : ∃ b, r' = .value b
    swap
    · rw [bestOf_value_of_not_value a rs (not_exists.1 hr')]
      exact ⟨fun h => absurd ⟨v, h⟩ hr', fun h => absurd (h.exists_value (by simp)) hr'⟩
    obtain ⟨b, rfl⟩ := hr'
    rw [bestOf, ih, isGreatestResult_maxWord]

theorem search_eq_value_iff {cfg : Config} {net : NetConfig} {fuel rounds : Nat}
    {image : List Word} {v : Word} :
    search cfg net fuel rounds image = .value v ↔
      IsGreatestResult v
        ((permutations net.ampCount).map (trial cfg net fuel rounds image)) := by
  unfold search
  split
  next hnil => simp [hnil, IsGreatestResult]
  next r rs hcons => rw [hcons, bestOf_eq_value_iff]

/-- Settles O56: the search goes through the results of exactly the permutations of `0 .. k-1`. -/
theorem searchIsMaximumOverAllPermutations : Obligations.SearchIsMaximumOverAllPermutations := by
  intro cfg net fuel rounds image v
  simp only [search_eq_value_iff, IsGreatestResult, List.mem_map, forall_exists_index, and_imp,
    forall_apply_eq_imp_iff₂, exists_exists_and_eq_and, mem_permutations_iff]

end Sys2Proof.Machine

/-! PROOF. `New` (70_reset_and_hazards.md R140) by its one accepting case, the invariant of the
Programs it makes, the state after reset as one of them, and that each Step completes (R150). -/

namespace Sys2Proof.Machine

section

variable {cfg : Config} {image : List Word} {first second : Word} {s : State}

/-- The Program that `New` makes of an image within `MEM_LIMIT` (D21). -/
theorem newProgram_of_length_le (himage : image.length ≤ cfg.memLimit) :
    newProgram cfg image first second =
      some ⟨cfg, .ofImage image, 0, 0#64, first, second, .first, .ready, false, .none⟩ :=
  if_pos himage

/-- `New` makes a Program only of an image within `MEM_LIMIT` (D21, log entry 15). -/
theorem length_le_of_newProgram (h : newProgram cfg image first second = some s) :
    image.length ≤ cfg.memLimit := by
  by_contra himage
  rw [newProgram, if_neg himage] at h
  cases h

/-- A Program that `New` makes meets the invariant: the image is a canonical memory, and a `Ready`
Program without the refused mark has no fault record to name. -/
theorem State.Inv.of_newProgram (hcfg : cfg.wf)
    (h : newProgram cfg image first second = some s) : s.Inv := by
  have himage := length_le_of_newProgram h
  rw [newProgram_of_length_le himage, Option.some_inj] at h
  subst h
  exact
    { cfg_wf := hcfg
      mem_wf := Memory.ofImage_wf image
      len_le := himage
      ip_le := Nat.zero_le _
      fault_ip := nofun
      fault_known := nofun
      refused_terminal := nofun }

end

/-- The state after reset is `New` of the empty image with both inputs 0 (log entry 2). -/
theorem newProgram_standard_nil : newProgram .standard [] 0#64 0#64 = some State.reset :=
  newProgram_of_length_le (Nat.zero_le _)

theorem Config.standard_wf : Config.standard.wf := by
  simp [Config.wf, Config.standard]

/-- Settles O41: a `Ready` Program takes a fault or commits, and a Step on a terminal Program is
refused, each in a next state. -/
theorem eachStepCompletes : Obligations.EachStepCompletes := step_next

/-- Settles O43: the state after reset is a Program that `New` makes. -/
theorem resetMeetsInvariant : Obligations.ResetMeetsInvariant :=
  .of_newProgram Config.standard_wf newProgram_standard_nil

/-- Settles O44: the record that `New` makes, field by field, with the words of the image read back
from its canonical cells. -/
theorem newRule : Obligations.NewRule := by
  intro cfg image first second himage
  have hnew := newProgram_of_length_le (first := first) (second := second) himage
  exact ⟨_, hnew, rfl, Memory.get_ofImage image, rfl, rfl, rfl, rfl, rfl, rfl, rfl, rfl,
    fun hcfg => .of_newProgram hcfg hnew⟩

end Sys2Proof.Machine
